-- ==== Sys2Proof/Word.lean ====
section
/-! DEFINITION. The word types of the core: what the spec treats as bits, and the indexes into its register and key files. -/

namespace Sys2Proof

/-- A memory byte, a general register or a timer (10_state.md R16, R22; 20_memory.md R44). -/
abbrev Byte := BitVec 8

/-- A 16-bit word: an instruction, I, PC or a return address (10_state.md R18, R19, R21; 30_encoding.md R62). -/
abbrev Word := BitVec 16

/-- A 12-bit address immediate `nnn` (30_encoding.md R63). -/
abbrev Addr12 := BitVec 12

/-- The number of a general register, 0x0 to 0xF (10_state.md R16). -/
abbrev Reg := Fin 16

/-- The number of a key, 0x0 to 0xF (10_state.md R27). -/
abbrev Key := Fin 16

/-- A sprite height `n`, 0 to 15 (30_encoding.md R64). -/
abbrev Height := Fin 16

/-- The number of VF (10_state.md R17). -/
abbrev regF : Reg := 15

/-- `zext_16` of a byte (00_scope.md R7). -/
def zextByte (b : Byte) : Word := b.setWidth 16

/-- `zext_16` of an address immediate (00_scope.md R7, 30_encoding.md R64). -/
def zextAddr (a : Addr12) : Word := a.setWidth 16

end Sys2Proof
end

