-- ==== Sys2Proof/Syntax.lean ====
section
/-! DEFINITION. The instructions: one constructor per row of spec/opcode_table.json. The operand types hold exactly the
values the fields of 30_encoding.md R63 can take, so that every term of `Instr` is an instruction of the table. -/

namespace Sys2Proof

/-- The 34 instructions (30_encoding.md R69). Constructors carry the conventional names of R76; the pattern of the table stands
beside each. -/
inductive Instr where
  /-- `00E0` clear the framebuffer (43_display.md R108). -/
  | cls
  /-- `00EE` return from subroutine (40_control_flow.md R78). -/
  | ret
  /-- `1nnn` jump (R79). -/
  | jp (nnn : Addr12)
  /-- `2nnn` call subroutine (R80). -/
  | call (nnn : Addr12)
  /-- `3xkk` skip if Vx = kk (R81). -/
  | seImm (x : Reg) (kk : Byte)
  /-- `4xkk` skip if Vx ≠ kk (R82). -/
  | sneImm (x : Reg) (kk : Byte)
  /-- `5xy0` skip if Vx = Vy (R83). -/
  | seReg (x y : Reg)
  /-- `6xkk` load immediate (41_alu.md R87). -/
  | ldImm (x : Reg) (kk : Byte)
  /-- `7xkk` add immediate (R88). -/
  | addImm (x : Reg) (kk : Byte)
  /-- `8xy0` register copy (R89). -/
  | ldReg (x y : Reg)
  /-- `8xy1` OR (R90). -/
  | orReg (x y : Reg)
  /-- `8xy2` AND (R91). -/
  | andReg (x y : Reg)
  /-- `8xy3` XOR (R92). -/
  | xorReg (x y : Reg)
  /-- `8xy4` add with carry (R93). -/
  | addReg (x y : Reg)
  /-- `8xy5` Vx − Vy (R94). -/
  | subReg (x y : Reg)
  /-- `8xy6` Vy shifted right (R95). -/
  | shrReg (x y : Reg)
  /-- `8xy7` Vy − Vx (R96). -/
  | subnReg (x y : Reg)
  /-- `8xyE` Vy shifted left (R97). -/
  | shlReg (x y : Reg)
  /-- `9xy0` skip if Vx ≠ Vy (40_control_flow.md R84). -/
  | sneReg (x y : Reg)
  /-- `Annn` load I (42_index_memory.md R101). -/
  | ldI (nnn : Addr12)
  /-- `Bnnn` jump to nnn + V0 (40_control_flow.md R85). -/
  | jpV0 (nnn : Addr12)
  /-- `Cxkk` random byte masked by kk (41_alu.md R98). -/
  | rnd (x : Reg) (kk : Byte)
  /-- `Dxyn` draw an n-row sprite at (Vx, Vy) (43_display.md R109). -/
  | drw (x y : Reg) (n : Height)
  /-- `Ex9E` skip if key Vx is pressed (44_input_timers.md R113). -/
  | skp (x : Reg)
  /-- `ExA1` skip if key Vx is not pressed (R114). -/
  | sknp (x : Reg)
  /-- `Fx07` read DT (R118). -/
  | ldVDt (x : Reg)
  /-- `Fx0A` wait for a key press then release (R116). -/
  | ldVK (x : Reg)
  /-- `Fx15` set DT (R119). -/
  | ldDtV (x : Reg)
  /-- `Fx18` set ST (R120). -/
  | ldStV (x : Reg)
  /-- `Fx1E` add Vx to I (42_index_memory.md R102). -/
  | addI (x : Reg)
  /-- `Fx29` point I at the glyph of Vx (R103). -/
  | ldF (x : Reg)
  /-- `Fx33` store the decimal digits of Vx (R104). -/
  | ldB (x : Reg)
  /-- `Fx55` store V0..Vx at I (R105). -/
  | storeRegs (x : Reg)
  /-- `Fx65` load V0..Vx from I (R106). -/
  | loadRegs (x : Reg)
  deriving DecidableEq, Repr

end Sys2Proof
end

