-- ==== Sys2Proof/WellFormed.lean ====
section
/-! DEFINITION. Which words are well formed: the opcode map of 30_encoding.md R69 as a list of rows, written from the spec's
masks and matches and apart from the decoder, and the unrecognized words of R70 class by class. A term of `Instr` needs no check of
its own: its operand types hold exactly the values its fields can take (R63, R65, R74), so what can be ill formed is a word. -/

namespace Sys2Proof

/-- One row of the opcode map: a word meets it when its bits under `mask` are `pattern` (30_encoding.md R69). -/
structure OpcodeRow where
  mnemonic : String
  mask     : Word
  pattern  : Word
  deriving DecidableEq, Repr

/-- The word meets the row. -/
def OpcodeRow.meets (r : OpcodeRow) (w : Word) : Bool := (w &&& r.mask) == r.pattern

/-- The row of each instruction: the mask and the match the spec prints for it (30_encoding.md R69). -/
def Instr.row : Instr → OpcodeRow
  | .cls           => { mnemonic := "00E0", mask := 0xFFFF, pattern := 0x00E0 }
  | .ret           => { mnemonic := "00EE", mask := 0xFFFF, pattern := 0x00EE }
  | .jp _          => { mnemonic := "1nnn", mask := 0xF000, pattern := 0x1000 }
  | .call _        => { mnemonic := "2nnn", mask := 0xF000, pattern := 0x2000 }
  | .seImm _ _     => { mnemonic := "3xkk", mask := 0xF000, pattern := 0x3000 }
  | .sneImm _ _    => { mnemonic := "4xkk", mask := 0xF000, pattern := 0x4000 }
  | .seReg _ _     => { mnemonic := "5xy0", mask := 0xF00F, pattern := 0x5000 }
  | .ldImm _ _     => { mnemonic := "6xkk", mask := 0xF000, pattern := 0x6000 }
  | .addImm _ _    => { mnemonic := "7xkk", mask := 0xF000, pattern := 0x7000 }
  | .ldReg _ _     => { mnemonic := "8xy0", mask := 0xF00F, pattern := 0x8000 }
  | .orReg _ _     => { mnemonic := "8xy1", mask := 0xF00F, pattern := 0x8001 }
  | .andReg _ _    => { mnemonic := "8xy2", mask := 0xF00F, pattern := 0x8002 }
  | .xorReg _ _    => { mnemonic := "8xy3", mask := 0xF00F, pattern := 0x8003 }
  | .addReg _ _    => { mnemonic := "8xy4", mask := 0xF00F, pattern := 0x8004 }
  | .subReg _ _    => { mnemonic := "8xy5", mask := 0xF00F, pattern := 0x8005 }
  | .shrReg _ _    => { mnemonic := "8xy6", mask := 0xF00F, pattern := 0x8006 }
  | .subnReg _ _   => { mnemonic := "8xy7", mask := 0xF00F, pattern := 0x8007 }
  | .shlReg _ _    => { mnemonic := "8xyE", mask := 0xF00F, pattern := 0x800E }
  | .sneReg _ _    => { mnemonic := "9xy0", mask := 0xF00F, pattern := 0x9000 }
  | .ldI _         => { mnemonic := "Annn", mask := 0xF000, pattern := 0xA000 }
  | .jpV0 _        => { mnemonic := "Bnnn", mask := 0xF000, pattern := 0xB000 }
  | .rnd _ _       => { mnemonic := "Cxkk", mask := 0xF000, pattern := 0xC000 }
  | .drw _ _ _     => { mnemonic := "Dxyn", mask := 0xF000, pattern := 0xD000 }
  | .skp _         => { mnemonic := "Ex9E", mask := 0xF0FF, pattern := 0xE09E }
  | .sknp _        => { mnemonic := "ExA1", mask := 0xF0FF, pattern := 0xE0A1 }
  | .ldVDt _       => { mnemonic := "Fx07", mask := 0xF0FF, pattern := 0xF007 }
  | .ldVK _        => { mnemonic := "Fx0A", mask := 0xF0FF, pattern := 0xF00A }
  | .ldDtV _       => { mnemonic := "Fx15", mask := 0xF0FF, pattern := 0xF015 }
  | .ldStV _       => { mnemonic := "Fx18", mask := 0xF0FF, pattern := 0xF018 }
  | .addI _        => { mnemonic := "Fx1E", mask := 0xF0FF, pattern := 0xF01E }
  | .ldF _         => { mnemonic := "Fx29", mask := 0xF0FF, pattern := 0xF029 }
  | .ldB _         => { mnemonic := "Fx33", mask := 0xF0FF, pattern := 0xF033 }
  | .storeRegs _   => { mnemonic := "Fx55", mask := 0xF0FF, pattern := 0xF055 }
  | .loadRegs _    => { mnemonic := "Fx65", mask := 0xF0FF, pattern := 0xF065 }

/-- The instructions of the classes 0 to 7, operands zero. -/
def Instr.samplesLow : List Instr :=
  [.cls, .ret, .jp 0, .call 0, .seImm 0 0, .sneImm 0 0, .seReg 0 0, .ldImm 0 0, .addImm 0 0]
/-- The instructions of class 8, operands zero. -/
def Instr.samplesAlu : List Instr :=
  [.ldReg 0 0, .orReg 0 0, .andReg 0 0, .xorReg 0 0, .addReg 0 0, .subReg 0 0, .shrReg 0 0, .subnReg 0 0, .shlReg 0 0]
/-- The instructions of the classes 9 to E, operands zero. -/
def Instr.samplesHigh : List Instr :=
  [.sneReg 0 0, .ldI 0, .jpV0 0, .rnd 0 0, .drw 0 0 0, .skp 0, .sknp 0]
/-- The instructions of class F, operands zero. -/
def Instr.samplesF : List Instr :=
  [.ldVDt 0, .ldVK 0, .ldDtV 0, .ldStV 0, .addI 0, .ldF 0, .ldB 0, .storeRegs 0, .loadRegs 0]
/-- One instruction of each constructor in the table's order: an index into the rows. -/
def Instr.samples : List Instr := Instr.samplesLow ++ Instr.samplesAlu ++ Instr.samplesHigh ++ Instr.samplesF

/-- The opcode map of 30_encoding.md R69. -/
def opcodeRows : List OpcodeRow := Instr.samples.map Instr.row

/-- The word is one of the 34 instructions: it meets a row of the opcode map (R69). -/
def Word.wellFormed (w : Word) : Bool := opcodeRows.any (fun r => r.meets w)

/-- The sub-codes n of class 8 that name no instruction (30_encoding.md R70). -/
def unusedClass8 : List Nat := [8, 9, 10, 11, 12, 13, 15]
/-- The sub-codes kk of class E that name an instruction (R70). -/
def usedClassE : List Nat := [0x9E, 0xA1]
/-- The sub-codes kk of class F that name an instruction (R70). -/
def usedClassF : List Nat := [0x07, 0x0A, 0x15, 0x18, 0x1E, 0x29, 0x33, 0x55, 0x65]

/-- The words of 30_encoding.md R70, class by class, read as numbers: `w / 4096` is the class, `w % 16` is `n` and
`w % 256` is `kk`. -/
def Word.listedUnrecognized (w : Nat) : Prop :=
  (w / 4096 = 0 ∧ w ≠ 0x00E0 ∧ w ≠ 0x00EE) ∨
  (w / 4096 = 5 ∧ w % 16 ≠ 0) ∨
  (w / 4096 = 8 ∧ w % 16 ∈ unusedClass8) ∨
  (w / 4096 = 9 ∧ w % 16 ≠ 0) ∨
  (w / 4096 = 14 ∧ w % 256 ∉ usedClassE) ∨
  (w / 4096 = 15 ∧ w % 256 ∉ usedClassF)

end Sys2Proof
end

