-- ==== Sys2Proof/Decode.lean ====
section
/-! DEFINITION. The decoder of 30_encoding.md (fields R63, dispatch R67, R68), total on any bytes and rejecting by name, and after it the
encoder written from the same encodings. -/

namespace Sys2Proof

/-- Why bytes are no instruction. -/
inductive DecodeReject where
  /-- The word meets no row of the opcode map (30_encoding.md R70). -/
  | unrecognized (w : Word)
  /-- There are fewer than the two bytes every instruction has (R62). -/
  | truncated
  deriving DecidableEq, Repr

/-- `opClass`, w[15:12] (R63). -/
def opClass (w : Word) : BitVec 4 := w.extractLsb' 12 4
/-- w[11:8] as bits. -/
def nibbleX (w : Word) : BitVec 4 := w.extractLsb' 8 4
/-- w[7:4] as bits. -/
def nibbleY (w : Word) : BitVec 4 := w.extractLsb' 4 4
/-- w[3:0] as bits. -/
def nibbleN (w : Word) : BitVec 4 := w.extractLsb' 0 4
/-- `x`, the register number in w[11:8] (R63). -/
def fieldX (w : Word) : Reg := (nibbleX w).toFin
/-- `y`, the register number in w[7:4] (R63). -/
def fieldY (w : Word) : Reg := (nibbleY w).toFin
/-- `n`, the count in w[3:0] (R63). -/
def fieldN (w : Word) : Height := (nibbleN w).toFin
/-- `kk`, the byte w[7:0] (R63). -/
def fieldKK (w : Word) : Byte := w.extractLsb' 0 8
/-- `nnn`, the address w[11:0] (R63). -/
def fieldNNN (w : Word) : Addr12 := w.extractLsb' 0 12

/-- The instruction word of two bytes, the first the high byte (20_memory.md R53, R54). -/
def wordOfBytes (hi lo : Byte) : Word := hi ++ lo
/-- The byte of a word at the lower address (R54). -/
def highByte (w : Word) : Byte := w.extractLsb' 8 8
/-- The byte of a word at the higher address (R54). -/
def lowByte (w : Word) : Byte := w.extractLsb' 0 8

/-- Class 0 is selected by w[11:0] (30_encoding.md R68). -/
def decodeClass0 (w : Word) : Except DecodeReject Instr :=
  match fieldNNN w with
  | 0x0E0#12 => .ok .cls
  | 0x0EE#12 => .ok .ret
  | _ => .error (.unrecognized w)

/-- Class 5 needs n = 0 (R68). DESIGN CHOICE of the spec (D13), log 13. -/
def decodeClass5 (w : Word) : Except DecodeReject Instr :=
  match nibbleN w with
  | 0x0#4 => .ok (.seReg (fieldX w) (fieldY w))
  | _ => .error (.unrecognized w)

/-- Class 8 is selected by n (R68). -/
def decodeClass8 (w : Word) : Except DecodeReject Instr :=
  match nibbleN w with
  | 0x0#4 => .ok (.ldReg (fieldX w) (fieldY w))
  | 0x1#4 => .ok (.orReg (fieldX w) (fieldY w))
  | 0x2#4 => .ok (.andReg (fieldX w) (fieldY w))
  | 0x3#4 => .ok (.xorReg (fieldX w) (fieldY w))
  | 0x4#4 => .ok (.addReg (fieldX w) (fieldY w))
  | 0x5#4 => .ok (.subReg (fieldX w) (fieldY w))
  | 0x6#4 => .ok (.shrReg (fieldX w) (fieldY w))
  | 0x7#4 => .ok (.subnReg (fieldX w) (fieldY w))
  | 0xE#4 => .ok (.shlReg (fieldX w) (fieldY w))
  | _ => .error (.unrecognized w)

/-- Class 9 needs n = 0 (R68). DESIGN CHOICE of the spec (D13), log 13. -/
def decodeClass9 (w : Word) : Except DecodeReject Instr :=
  match nibbleN w with
  | 0x0#4 => .ok (.sneReg (fieldX w) (fieldY w))
  | _ => .error (.unrecognized w)

/-- Class E is selected by kk (R68). -/
def decodeClassE (w : Word) : Except DecodeReject Instr :=
  match fieldKK w with
  | 0x9E#8 => .ok (.skp (fieldX w))
  | 0xA1#8 => .ok (.sknp (fieldX w))
  | _ => .error (.unrecognized w)

/-- Class F is selected by kk (R68). -/
def decodeClassF (w : Word) : Except DecodeReject Instr :=
  match fieldKK w with
  | 0x07#8 => .ok (.ldVDt (fieldX w))
  | 0x0A#8 => .ok (.ldVK (fieldX w))
  | 0x15#8 => .ok (.ldDtV (fieldX w))
  | 0x18#8 => .ok (.ldStV (fieldX w))
  | 0x1E#8 => .ok (.addI (fieldX w))
  | 0x29#8 => .ok (.ldF (fieldX w))
  | 0x33#8 => .ok (.ldB (fieldX w))
  | 0x55#8 => .ok (.storeRegs (fieldX w))
  | 0x65#8 => .ok (.loadRegs (fieldX w))
  | _ => .error (.unrecognized w)

/-- Decode: primary dispatch on `opClass` (R67), secondary dispatch in the classes 0, 5, 8, 9, E and F (R68). -/
def decodeWord (w : Word) : Except DecodeReject Instr :=
  match opClass w with
  | 0x0#4 => decodeClass0 w
  | 0x1#4 => .ok (.jp (fieldNNN w))
  | 0x2#4 => .ok (.call (fieldNNN w))
  | 0x3#4 => .ok (.seImm (fieldX w) (fieldKK w))
  | 0x4#4 => .ok (.sneImm (fieldX w) (fieldKK w))
  | 0x5#4 => decodeClass5 w
  | 0x6#4 => .ok (.ldImm (fieldX w) (fieldKK w))
  | 0x7#4 => .ok (.addImm (fieldX w) (fieldKK w))
  | 0x8#4 => decodeClass8 w
  | 0x9#4 => decodeClass9 w
  | 0xA#4 => .ok (.ldI (fieldNNN w))
  | 0xB#4 => .ok (.jpV0 (fieldNNN w))
  | 0xC#4 => .ok (.rnd (fieldX w) (fieldKK w))
  | 0xD#4 => .ok (.drw (fieldX w) (fieldY w) (fieldN w))
  | 0xE#4 => decodeClassE w
  | 0xF#4 => decodeClassF w
  | _ => .error (.unrecognized w)

/-- Decode the instruction at the head of a byte sequence: its first two bytes, big-endian (R62). -/
def decodeBytes : List Byte → Except DecodeReject Instr
  | hi :: lo :: _ => decodeWord (wordOfBytes hi lo)
  | _ => .error .truncated

/-- A register number or a count as the four bits of its field. -/
def nibble (k : Fin 16) : BitVec 4 := BitVec.ofFin k

/-- A word of four nibbles, opClass first (R63). -/
def wordOfNibbles (c x y n : BitVec 4) : Word := c ++ x ++ y ++ n
/-- A word of opClass, a register and a byte (R63). -/
def wordOfXKK (c x : BitVec 4) (kk : Byte) : Word := c ++ x ++ kk
/-- A word of opClass and an address (R63). -/
def wordOfNNN (c : BitVec 4) (nnn : Addr12) : Word := c ++ nnn

/-- The word of an instruction, from the encodings of R69. -/
def encode : Instr → Word
  | .cls           => 0x00E0
  | .ret           => 0x00EE
  | .jp nnn        => wordOfNNN 0x1 nnn
  | .call nnn      => wordOfNNN 0x2 nnn
  | .seImm x kk    => wordOfXKK 0x3 (nibble x) kk
  | .sneImm x kk   => wordOfXKK 0x4 (nibble x) kk
  | .seReg x y     => wordOfNibbles 0x5 (nibble x) (nibble y) 0x0
  | .ldImm x kk    => wordOfXKK 0x6 (nibble x) kk
  | .addImm x kk   => wordOfXKK 0x7 (nibble x) kk
  | .ldReg x y     => wordOfNibbles 0x8 (nibble x) (nibble y) 0x0
  | .orReg x y     => wordOfNibbles 0x8 (nibble x) (nibble y) 0x1
  | .andReg x y    => wordOfNibbles 0x8 (nibble x) (nibble y) 0x2
  | .xorReg x y    => wordOfNibbles 0x8 (nibble x) (nibble y) 0x3
  | .addReg x y    => wordOfNibbles 0x8 (nibble x) (nibble y) 0x4
  | .subReg x y    => wordOfNibbles 0x8 (nibble x) (nibble y) 0x5
  | .shrReg x y    => wordOfNibbles 0x8 (nibble x) (nibble y) 0x6
  | .subnReg x y   => wordOfNibbles 0x8 (nibble x) (nibble y) 0x7
  | .shlReg x y    => wordOfNibbles 0x8 (nibble x) (nibble y) 0xE
  | .sneReg x y    => wordOfNibbles 0x9 (nibble x) (nibble y) 0x0
  | .ldI nnn       => wordOfNNN 0xA nnn
  | .jpV0 nnn      => wordOfNNN 0xB nnn
  | .rnd x kk      => wordOfXKK 0xC (nibble x) kk
  | .drw x y n     => wordOfNibbles 0xD (nibble x) (nibble y) (nibble n)
  | .skp x         => wordOfXKK 0xE (nibble x) 0x9E
  | .sknp x        => wordOfXKK 0xE (nibble x) 0xA1
  | .ldVDt x       => wordOfXKK 0xF (nibble x) 0x07
  | .ldVK x        => wordOfXKK 0xF (nibble x) 0x0A
  | .ldDtV x       => wordOfXKK 0xF (nibble x) 0x15
  | .ldStV x       => wordOfXKK 0xF (nibble x) 0x18
  | .addI x        => wordOfXKK 0xF (nibble x) 0x1E
  | .ldF x         => wordOfXKK 0xF (nibble x) 0x29
  | .ldB x         => wordOfXKK 0xF (nibble x) 0x33
  | .storeRegs x   => wordOfXKK 0xF (nibble x) 0x55
  | .loadRegs x    => wordOfXKK 0xF (nibble x) 0x65

/-- The bytes of an instruction in memory order (R54). -/
def encodeBytes (i : Instr) : List Byte := [highByte (encode i), lowByte (encode i)]

/-- The word the host places: `nbits` bits of `w`, every bit above them zero, the first 16 of which are the instruction. -/
def tableWord (nbits w : Nat) : Word := BitVec.ofNat 16 (w % 2 ^ nbits)

/-- The instruction the decoder reads from the word `w` of the opcode table, laid out as the hardware stores it: the high byte at the
lower address (20_memory.md R54). -/
def decodeTableWord (nbits w : Nat) : Option Instr :=
  match decodeBytes [highByte (tableWord nbits w), lowByte (tableWord nbits w)] with
  | .ok i => some i
  | .error _ => none

end Sys2Proof
end

