-- ==== Sys2Proof/Config.lean ====
section
/-! DEFINITION. What is fixed for the machine: the sizes of 00_scope.md R6, the type of its open parameters, and the free values. -/

namespace Sys2Proof.Config

/-- `MEM_SIZE` (00_scope.md R6, 20_memory.md R44). DESIGN CHOICE of the spec (D2), log 7. -/
def memSize : Nat := 4096

/-- `STACK_DEPTH` (00_scope.md R6, 10_state.md R20). DESIGN CHOICE of the spec (D6), log 8. -/
def stackDepth : Nat := 16

/-- The number of bytes of the font region 0x000..0x04F (20_memory.md R46, R49). -/
def fontSize : Nat := 80

/-- `PROGRAM_BASE`, the reset PC and the address LOAD copies to (00_scope.md R6). -/
def programBase : Nat := 0x200

/-- `FONT_GLYPH_BYTES`, the bytes of one glyph (00_scope.md R6, 20_memory.md R50). -/
def glyphBytes : Nat := 5

/-- `FONT_WRITE_POLICY`: what a data write to the font region does (20_memory.md R47, R52). -/
inductive FontWritePolicy where
  /-- The write faults with FontWrite (the spec's default). -/
  | fault
  /-- The write is an ordinary write. -/
  | allow
  deriving DecidableEq, Repr

/-- `VF_ALIAS`: what VF holds after a flag-writing instruction whose destination is VF (30_encoding.md R73). -/
inductive VfAlias where
  /-- The flag is written last (the spec's default). -/
  | flagWins
  /-- VF ends holding any byte, a free value. -/
  | anyValue
  deriving DecidableEq, Repr

/-- The parameters a model takes as arguments (00_scope.md R6). The machine carries them in its state and no
operation changes them (log 15). -/
structure Params where
  /-- `FONT_WRITE_POLICY` (D8). -/
  fontWritePolicy : FontWritePolicy
  /-- `VF_ALIAS` (D10). -/
  vfAlias : VfAlias
  /-- `FONT_TABLE`, the 80 bytes INIT puts at 0x000..0x04F, glyph d at 5*d (20_memory.md R49, D16). -/
  fontTable : Vector Byte 80
  /-- `MAX_PROGRAM_LEN`, the longest program LOAD accepts (70_reset_and_hazards.md R140, D17). -/
  maxProgramLen : Nat
  deriving DecidableEq, Repr

/-- `rand8()`: the byte of the `k`-th draw, a FREE VALUE (10_state.md R37, D19). It has no body, so nothing can
be proved of it. Log 2. -/
opaque randByte : Nat → Byte

/-- The byte left in VF by the `k`-th draw under `VF_ALIAS` = AnyValue, a FREE VALUE (30_encoding.md R73). Log 3. -/
opaque vfAnyValue : Nat → Byte

end Sys2Proof.Config
end

