-- ==== Sys2Proof/Machine/Params.lean ====
section
/-! DEFINITION. The default values of the parameters of 00_scope.md R6. -/

namespace Sys2Proof.Machine

/-- The default of `FONT_WRITE_POLICY` (20_memory.md R47, D8). DESIGN CHOICE of the spec, log 4. -/
def defaultFontWritePolicy : Config.FontWritePolicy := .fault

/-- The default of `VF_ALIAS` (30_encoding.md R73, D10). DESIGN CHOICE of the spec, log 3. -/
def defaultVfAlias : Config.VfAlias := .flagWins

/-- The default of `MAX_PROGRAM_LEN` (70_reset_and_hazards.md R140, D17, 90_conflicts.md C2). DESIGN CHOICE of the spec, log 9. -/
def defaultMaxProgramLen : Nat := 0xBFF

/-- The 80 bytes of the default `FONT_TABLE`, five a glyph (20_memory.md R49). PRESUMED: the spec marks the bytes as general
knowledge. UNSAFE for a claim about glyph pixels that does not name the parameter. Log 5. -/
def defaultFontBytes : List Byte :=
  [0xF0, 0x90, 0x90, 0x90, 0xF0] ++ [0x20, 0x60, 0x20, 0x20, 0x70] ++
  [0xF0, 0x10, 0xF0, 0x80, 0xF0] ++ [0xF0, 0x10, 0xF0, 0x10, 0xF0] ++
  [0x90, 0x90, 0xF0, 0x10, 0x10] ++ [0xF0, 0x80, 0xF0, 0x10, 0xF0] ++
  [0xF0, 0x80, 0xF0, 0x90, 0xF0] ++ [0xF0, 0x10, 0x20, 0x40, 0x40] ++
  [0xF0, 0x90, 0xF0, 0x90, 0xF0] ++ [0xF0, 0x90, 0xF0, 0x10, 0xF0] ++
  [0xF0, 0x90, 0xF0, 0x90, 0x90] ++ [0xE0, 0x90, 0xE0, 0x90, 0xE0] ++
  [0xF0, 0x80, 0x80, 0x80, 0xF0] ++ [0xE0, 0x90, 0x90, 0x90, 0xE0] ++
  [0xF0, 0x80, 0xF0, 0x80, 0xF0] ++ [0xF0, 0x80, 0xF0, 0x80, 0x80]

/-- The default of `FONT_TABLE` (20_memory.md R49, D16). Log 5. -/
def defaultFontTable : Vector Byte 80 := ⟨defaultFontBytes.toArray, rfl⟩

/-- The parameters of the machine after reset (00_scope.md R6). -/
def defaultParams : Config.Params :=
  { fontWritePolicy := defaultFontWritePolicy, vfAlias := defaultVfAlias, fontTable := defaultFontTable,
    maxProgramLen := defaultMaxProgramLen }

end Sys2Proof.Machine
end

