-- ==== Sys2Proof/Machine/Memory.lean ====
section
/-! DEFINITION. Memory as plain data: the reset contents of 10_state.md R32, and a canonical list of the cells that differ from them under
the default font table
(log 14). -/

namespace Sys2Proof.Machine

/-- What an unlisted address reads as: its contents after INIT under the default `FONT_TABLE` (10_state.md R32, R34). -/
def unlistedByte (a : Nat) : Byte := defaultFontBytes.getD a 0

/-- Memory: the cells whose byte is not the one an unlisted address reads as, addresses strictly rising. -/
abbrev Memory := List Host.Cell

/-- The byte at an address (20_memory.md R51, R58). -/
def Memory.read : Memory → Nat → Byte
  | [], a => unlistedByte a
  | (b, v) :: rest, a => if a = b then v else Memory.read rest a

/-- Memory without any cell for an address. -/
def Memory.erase : Memory → Nat → Memory
  | [], _ => []
  | (b, u) :: rest, a => if a = b then Memory.erase rest a else (b, u) :: Memory.erase rest a

/-- Memory with a cell put before the first cell of a higher address. -/
def Memory.insertCell : Memory → Nat → Byte → Memory
  | [], a, v => [(a, v)]
  | (b, u) :: rest, a, v => if a < b then (a, v) :: (b, u) :: rest else (b, u) :: Memory.insertCell rest a v

/-- Memory with one byte replaced (20_memory.md R52, R57: a write changes only the byte it names). A byte equal to what the
address reads as unlisted is held by no cell. -/
def Memory.set (m : Memory) (a : Nat) (v : Byte) : Memory :=
  if v = unlistedByte a then m.erase a else (m.erase a).insertCell a v

/-- The cells lie at or above `lo`, inside memory, in strictly rising order, and none holds what its address reads as
unlisted. -/
def Memory.wfFrom : Nat → Memory → Bool
  | _, [] => true
  | lo, (a, v) :: rest =>
    decide (lo ≤ a) && decide (a < Config.memSize) && decide (v ≠ unlistedByte a) && Memory.wfFrom (a + 1) rest

/-- Memory is in its canonical form, so that equal memories are equal lists. -/
def Memory.wf (m : Memory) : Bool := Memory.wfFrom 0 m

end Sys2Proof.Machine
end

