-- ==== Sys2Proof/Machine/State.lean ====
section
/-! DEFINITION. The state of the core (10_state.md R15), the reasons a step can stop, and the state after reset (R34). -/

namespace Sys2Proof.Machine

/-- The states of the key-wait machine (10_state.md R29). -/
inductive WaitState where
  | idle
  | waiting
  deriving DecidableEq, Repr

/-- The fault codes 0 to 7 (60_exceptions.md R123). -/
inductive FaultCode where
  | none
  | stackOverflow
  | stackUnderflow
  | fetchRange
  | memReadRange
  | memWriteRange
  | fontWrite
  | keyRange
  deriving DecidableEq, Repr

/-- The outcome of the most recent STEP (10_state.md R31). -/
inductive Status where
  | ok
  | unrecognized
  | fault
  deriving DecidableEq, Repr

/-- The framebuffer: row words `fbw[0..31]`, pixel (r, c) being bit 63 − c of row r (10_state.md R24). -/
abbrev FrameBuffer := Vector (BitVec 64) 32

/-- A vector of 16 key levels, true for pressed (10_state.md R27). -/
abbrev KeyVector := Vector Bool 16

/-- The complete state of the core (10_state.md R15). -/
@[ext]
structure State where
  /-- `mem[0..4095]` (R32). -/
  mem : Memory
  /-- `V[0..15]` (R16). -/
  v : Vector Byte 16
  /-- `I` (R18). -/
  i : Word
  /-- `PC` (R19). -/
  pc : Word
  /-- `SP`, 0 for the empty stack, otherwise the number of the top slot (R20). Log 8. -/
  sp : Fin 17
  /-- `stack[1..16]`, slot j at index j − 1 (R21). Log 8. -/
  stack : Vector Word 16
  /-- `DT` (R22). -/
  dt : Byte
  /-- `ST` (R23). -/
  st : Byte
  /-- `fb[0..31][0..63]` (R24). -/
  fb : FrameBuffer
  /-- `drawFlag` (R26). -/
  drawFlag : Bool
  /-- `keys[0..15]` (R27). -/
  keys : KeyVector
  /-- `keysPrev[0..15]` (R28). -/
  keysPrev : KeyVector
  /-- `waitState` (R29). -/
  waitState : WaitState
  /-- `waitAddr` (R29). -/
  waitAddr : Word
  /-- `halted` (R30). -/
  halted : Bool
  /-- `faultCode` (R30, 60_exceptions.md R123). -/
  faultCode : FaultCode
  /-- `faultInfo`, below 2^17 (R30). -/
  faultInfo : BitVec 17
  /-- `lastStatus` (R31). -/
  lastStatus : Status
  /-- `diagWord` (R31). -/
  diagWord : Word
  /-- The implementation parameters of 00_scope.md R6; the model's own field, changed by no operation. Log 15. -/
  params : Config.Params
  /-- The number of free values drawn so far; the model's own field. Log 2. -/
  freeDraws : Nat
  deriving DecidableEq, Repr

/-- The reasons a step ends in a fault outcome. -/
inductive Fault where
  /-- Raised by `step` on a halted core, which executes nothing and returns the latched code (60_exceptions.md R126). The
  faulting STEP itself is a next state that writes the latch (R125). Safe: the machine makes no further step. Log 1. -/
  | halted (code : FaultCode)
  deriving DecidableEq, Repr

/-- The reasons for which an operation has no meaning. -/
inductive Refusal where
  /-- Raised by an arm of `exec` whose instruction has no meaning yet; no arm does. Safe: the machine stops. -/
  | notModelled (mnemonic : String)
  /-- Raised by the host operation SET_KEY for a key number outside 0..15 (10_state.md R43); no instruction raises it. Safe:
  the spec gives the operation no move. -/
  | keyNumberOutOfRange (k : Nat)
  deriving DecidableEq, Repr

/-- The machine right after INIT (10_state.md R34, 70_reset_and_hazards.md R138). Every value is the spec's but
for `freeDraws` (DESIGN CHOICE, log 2); `params` holds the spec's defaults (00_scope.md R6). -/
def State.reset : State where
  mem := []
  v := Vector.replicate 16 0
  i := 0
  pc := 0x200
  sp := 0
  stack := Vector.replicate 16 0
  dt := 0
  st := 0
  fb := Vector.replicate 32 0
  drawFlag := false
  keys := Vector.replicate 16 false
  keysPrev := Vector.replicate 16 false
  waitState := .idle
  waitAddr := 0
  halted := false
  faultCode := .none
  faultInfo := 0
  lastStatus := .ok
  diagWord := 0
  params := defaultParams
  freeDraws := 0

end Sys2Proof.Machine
end

