-- ==== Sys2Proof/Machine/Ops.lean ====
section
/-! DEFINITION. The shared operations over registers, memory, the fault latch and the frame of a STEP. Every meaning is written
over them. -/

namespace Sys2Proof.Machine

/-- A raised fault: its code and its info (00_scope.md R9, 60_exceptions.md R123). -/
structure FaultEvent where
  code : FaultCode
  info : BitVec 17
  deriving DecidableEq, Repr

/-- `raise Fault(code, info)` with a natural number below 2^17 (10_state.md R30). -/
def raiseFault (code : FaultCode) (info : Nat) : FaultEvent := { code := code, info := BitVec.ofNat 17 info }

/-- The numeric fault codes (60_exceptions.md R123). -/
def FaultCode.toBits : FaultCode → BitVec 3
  | .none => 0
  | .stackOverflow => 1
  | .stackUnderflow => 2
  | .fetchRange => 3
  | .memReadRange => 4
  | .memWriteRange => 5
  | .fontWrite => 6
  | .keyRange => 7

/-- The numeric STEP statuses (10_state.md R31). -/
def Status.toBits : Status → BitVec 2
  | .ok => 0
  | .unrecognized => 1
  | .fault => 2

/-! ### General registers -/

/-- `V[r]` (10_state.md R16). -/
def State.readV (s : State) (r : Reg) : Byte := s.v[r]

/-- `V[r] <- b` (10_state.md R16). -/
def State.writeV (s : State) (r : Reg) (b : Byte) : State := { s with v := s.v.set r b }

/-! ### Memory -/

/-- `MemRead(addr, 1)`, the address an unbounded natural (20_memory.md R51). -/
def memRead (m : Memory) (a : Nat) : Except FaultEvent Byte :=
  if Config.memSize ≤ a then .error (raiseFault .memReadRange a) else .ok (m.read a)

/-- `MemWrite(addr, 1, b)`: the range check before the font check (20_memory.md R52, 60_exceptions.md R127). -/
def memWrite (p : Config.Params) (m : Memory) (a : Nat) (b : Byte) : Except FaultEvent Memory :=
  if Config.memSize ≤ a then .error (raiseFault .memWriteRange a)
  else if a < Config.fontSize ∧ p.fontWritePolicy = .fault then .error (raiseFault .fontWrite a)
  else .ok (m.set a b)

/-- Bytes stored at ascending addresses from `a`, all or none: the first failing address is the fault (20_memory.md R57,
60_exceptions.md R127). -/
def memWriteBlock (p : Config.Params) : Memory → Nat → List Byte → Except FaultEvent Memory
  | m, _, [] => .ok m
  | m, a, b :: rest =>
    match memWrite p m a b with
    | .error f => .error f
    | .ok m' => memWriteBlock p m' (a + 1) rest

/-- `n` bytes read at ascending addresses from `a`; the first failing address is the fault (60_exceptions.md R127). -/
def memReadBlock (m : Memory) : Nat → Nat → Except FaultEvent (List Byte)
  | _, 0 => .ok []
  | a, n + 1 =>
    match memRead m a with
    | .error f => .error f
    | .ok b =>
      match memReadBlock m (a + 1) n with
      | .error f => .error f
      | .ok rest => .ok (b :: rest)

/-- A host's write of one byte, under no font check; an address outside memory has no byte to write
(70_reset_and_hazards.md R140). Log 18. -/
def Memory.poke (m : Memory) (a : Nat) (b : Byte) : Memory := if a < Config.memSize then m.set a b else m

/-- A host's copy of bytes to ascending addresses (70_reset_and_hazards.md R140). -/
def Memory.pokeBlock : Memory → Nat → List Byte → Memory
  | m, _, [] => m
  | m, a, b :: rest => Memory.pokeBlock (m.poke a b) (a + 1) rest

/-- Memory after INIT: `FONT_TABLE` at 0x000..0x04F and 0x00 elsewhere (70_reset_and_hazards.md R138). Under the default table no
address is listed. Log 5. -/
def initialMemory (p : Config.Params) : Memory := Memory.pokeBlock [] 0 p.fontTable.toList

/-- `Fetch(PC)`: the big-endian word at PC, in range up to 0xFFE (20_memory.md R53). -/
def fetch (s : State) : Except FaultEvent Word :=
  if Config.memSize ≤ s.pc.toNat + 1 then .error (raiseFault .fetchRange s.pc.toNat)
  else .ok (wordOfBytes (s.mem.read s.pc.toNat) (s.mem.read (s.pc.toNat + 1)))

/-! ### The frame of a STEP -/

/-- The Decoder's advance, `PC <- trunc_16(PC + 2)` (30_encoding.md R66). -/
def State.advance (s : State) : State := { s with pc := s.pc + 2 }

/-- The state in which an instruction other than `Fx0A` executes: PC advanced and the wait left (30_encoding.md R66,
44_input_timers.md R115). -/
def State.begin (s : State) : State := { s.advance with waitState := .idle }

/-- The end of an instruction that executed: `lastStatus <- Ok` (30_encoding.md R66). -/
def retire (t : State) : Host.Outcome State Fault Refusal := .next { t with lastStatus := .ok }

/-- TAKING A FAULT: the state at the start of the STEP plus the latch (60_exceptions.md R125). The core has no return from a
fault (R132); only the host's INIT leaves it. -/
def takeFault (s : State) (f : FaultEvent) : State :=
  { s with halted := true, faultCode := f.code, faultInfo := f.info, lastStatus := .fault }

/-- A STEP whose execution from the state `s` ended in `r`: the new state, or the fault taken at `s` (30_encoding.md R66). -/
def finish (s : State) (r : Except FaultEvent State) : Host.Outcome State Fault Refusal :=
  match r with
  | .ok t => retire t
  | .error f => .next (takeFault s f)

/-- A STEP whose word `w` is no instruction: PC advances, the wait is left and the diagnostic is latched (30_encoding.md R66,
R71; 60_exceptions.md R128). -/
def unrecognizedStep (s : State) (w : Word) : Host.Outcome State Fault Refusal :=
  .next { s.begin with diagWord := w, lastStatus := .unrecognized }

/-- A STEP of the halted core: nothing executes and the outcome is the latched fault (60_exceptions.md R126). Log 1. -/
def haltedStep (s : State) : Host.Outcome State Fault Refusal := .fault (.halted s.faultCode)

/-! ### The return stack -/

/-- Push a return address into the next slot; `h` says that there is one (10_state.md R20, R21). -/
def State.push (s : State) (a : Word) (h : s.sp.val < Config.stackDepth) : State :=
  { s with
    sp := ⟨s.sp.val + 1, Nat.succ_lt_succ h⟩
    stack := s.stack.set s.sp.val a h }

/-- The top slot; `h` says that the stack is not empty (10_state.md R20, R21). -/
def State.top (s : State) (h : 0 < s.sp.val) : Word :=
  s.stack[s.sp.val - 1]'(by have := s.sp.isLt; omega)

/-- Drop the top slot, whose value stays where it is (40_control_flow.md R78). -/
def State.drop (s : State) : State := { s with sp := ⟨s.sp.val - 1, by have := s.sp.isLt; omega⟩ }

/-! ### The framebuffer -/

/-- The pixel in column `c` of a row word: bit 63 − c (10_state.md R24). -/
def rowPixel (row : BitVec 64) (c : Nat) : Bool := row.getLsbD (63 - c)

/-- A row word with the pixel in column `c` inverted (10_state.md R24, 43_display.md R109). -/
def flipPixel (row : BitVec 64) (c : Nat) : BitVec 64 := row ^^^ (1#64 <<< (63 - c))

/-- `fb[r][c]` (10_state.md R24). -/
def State.pixel (s : State) (r : Fin 32) (c : Fin 64) : Bool := rowPixel s.fb[r] c.val

/-- The blank framebuffer (43_display.md R108). -/
def blankFrame : FrameBuffer := Vector.replicate 32 0

end Sys2Proof.Machine
end

