-- ==== Sys2Proof/Machine/Flags.lean ====
section
/-! DEFINITION. The results and flags of the flag-writing instructions, and the write of the pair (30_encoding.md R73, 41_alu.md R100). -/

namespace Sys2Proof.Machine

/-- A flag as the byte VF holds. -/
def flagByte (b : Bool) : Byte := if b then 1 else 0

/-- `trunc_8(a + b)` (41_alu.md R93). -/
def sumByte (a b : Byte) : Byte := BitVec.ofNat 8 (a.toNat + b.toNat)

/-- The carry: the sum exceeds 255 (41_alu.md R93). -/
def carryFlag (a b : Byte) : Bool := decide (255 < a.toNat + b.toNat)

/-- `trunc_8(a - b + 256)` (41_alu.md R94). -/
def diffByte (a b : Byte) : Byte := BitVec.ofNat 8 (a.toNat + 256 - b.toNat)

/-- Not borrow: the minuend is at least the subtrahend (41_alu.md R94, R96). -/
def noBorrowFlag (a b : Byte) : Bool := decide (b.toNat ≤ a.toNat)

/-- `b >> 1` (41_alu.md R95). -/
def shiftRightByte (b : Byte) : Byte := b >>> 1

/-- Bit 0, shifted out to the right (41_alu.md R95). -/
def bit0Flag (b : Byte) : Bool := b.getLsbD 0

/-- `trunc_8(b << 1)` (41_alu.md R97). -/
def shiftLeftByte (b : Byte) : Byte := b <<< 1

/-- Bit 7, shifted out to the left (41_alu.md R97). -/
def bit7Flag (b : Byte) : Bool := b.getLsbD 7

/-- The next value of `rand8()` and the state past that draw (10_state.md R37). A free value, log 2. -/
def State.drawRandom (s : State) : Byte × State :=
  (Config.randByte s.freeDraws, { s with freeDraws := s.freeDraws + 1 })

/-- VF written with any byte (30_encoding.md R73, AnyValue). A free value, log 3. -/
def State.writeVfAny (s : State) : State :=
  { s.writeV regF (Config.vfAnyValue s.freeDraws) with freeDraws := s.freeDraws + 1 }

/-- `WriteRF(r, f)`: the result to V[x], then VF by `VF_ALIAS` (30_encoding.md R73). -/
def State.writeRF (s : State) (x : Reg) (r : Byte) (f : Bool) : State :=
  if x ≠ regF ∨ s.params.vfAlias = .flagWins then (s.writeV x r).writeV regF (flagByte f)
  else (s.writeV x r).writeVfAny

end Sys2Proof.Machine
end

