-- ==== Sys2Proof/Machine/Operands.lean ====
section
/-! DEFINITION. The operand forms: the register block, the key index, the glyph address, the decimal digits, the origin of a
sprite and the skip (42_index_memory.md R107, 44_input_timers.md R121). -/

namespace Sys2Proof.Machine

/-- `KeyIndex(k)` (44_input_timers.md R121). -/
def keyIndex (b : Byte) : Except FaultEvent Key :=
  if h : b.toNat < 16 then .ok ⟨b.toNat, h⟩ else .error (raiseFault .keyRange b.toNat)

/-- The block V0..Vx, the operand of `Fx55` (42_index_memory.md R105). -/
def State.regBlock (s : State) (x : Reg) : List Byte := s.v.toList.take (x.val + 1)

/-- `V[k], V[k+1], … <- bs`; the registers end at VF (42_index_memory.md R106). -/
def setRegsFrom (v : Vector Byte 16) : Nat → List Byte → Vector Byte 16
  | _, [] => v
  | k, b :: rest => setRegsFrom (v.setIfInBounds k b) (k + 1) rest

/-- I after a block transfer of V0..Vx from base I: `trunc_16(base + x + 1)` (42_index_memory.md R105, R106). -/
def indexAfterBlock (i : Word) (x : Reg) : Word := BitVec.ofNat 16 (i.toNat + x.val + 1)

/-- The glyph address `5 * b` of the whole register value (20_memory.md R50, 42_index_memory.md R103). -/
def glyphAddr (b : Byte) : Word := BitVec.ofNat 16 (Config.glyphBytes * b.toNat)

/-- The decimal digits of a byte: hundreds, tens, ones (42_index_memory.md R104). -/
def decimalDigits (b : Byte) : List Byte :=
  [BitVec.ofNat 8 (b.toNat / 100), BitVec.ofNat 8 (b.toNat / 10 % 10), BitVec.ofNat 8 (b.toNat % 10)]

/-- The column of a sprite's origin, `V[x] % 64` (43_display.md R109). -/
def originColumn (b : Byte) : Nat := b.toNat % 64

/-- The row of a sprite's origin, `V[y] % 32` (43_display.md R109). -/
def originRow (b : Byte) : Nat := b.toNat % 32

/-- Skip the next instruction when the condition holds: `PC <- trunc_16(PC + 2)` (40_control_flow.md R81). -/
def State.skipIf (s : State) (c : Bool) : State := if c then s.advance else s

/-- The keys released since the snapshot, in ascending order of number: the first is `min(R)` (44_input_timers.md R116).
DESIGN CHOICE of the spec (D11), log 10. -/
def firstReleased (prev now : KeyVector) : Option Key := (List.finRange 16).find? (fun k => prev[k] && !now[k])

/-- The number of a key as a register value. -/
def keyByte (k : Key) : Byte := BitVec.ofNat 8 k.val

end Sys2Proof.Machine
end

