-- ==== Sys2Proof/Machine/Alu.lean ====
section
/-! DEFINITION. Register loads and ALU: `6xkk`, `7xkk`, `8xy0` to `8xyE`, `Cxkk` (41_alu.md R87 to R100). -/

namespace Sys2Proof.Machine

/-- `6xkk` (41_alu.md R87). -/
def execLdImm (x : Reg) (kk : Byte) (s : State) : Host.Outcome State Fault Refusal :=
  retire (s.begin.writeV x kk)

/-- `7xkk`, no flag (41_alu.md R88). -/
def execAddImm (x : Reg) (kk : Byte) (s : State) : Host.Outcome State Fault Refusal :=
  retire (s.begin.writeV x (sumByte (s.readV x) kk))

/-- `8xy0` (41_alu.md R89). -/
def execLdReg (x y : Reg) (s : State) : Host.Outcome State Fault Refusal :=
  retire (s.begin.writeV x (s.readV y))

/-- `8xy1`, VF reset (41_alu.md R90). -/
def execOrReg (x y : Reg) (s : State) : Host.Outcome State Fault Refusal :=
  retire (s.begin.writeRF x (s.readV x ||| s.readV y) false)

/-- `8xy2`, VF reset (41_alu.md R91). -/
def execAndReg (x y : Reg) (s : State) : Host.Outcome State Fault Refusal :=
  retire (s.begin.writeRF x (s.readV x &&& s.readV y) false)

/-- `8xy3`, VF reset (41_alu.md R92). -/
def execXorReg (x y : Reg) (s : State) : Host.Outcome State Fault Refusal :=
  retire (s.begin.writeRF x (s.readV x ^^^ s.readV y) false)

/-- `8xy4`, VF the carry (41_alu.md R93). -/
def execAddReg (x y : Reg) (s : State) : Host.Outcome State Fault Refusal :=
  retire (s.begin.writeRF x (sumByte (s.readV x) (s.readV y)) (carryFlag (s.readV x) (s.readV y)))

/-- `8xy5`, VF not borrow (41_alu.md R94). -/
def execSubReg (x y : Reg) (s : State) : Host.Outcome State Fault Refusal :=
  retire (s.begin.writeRF x (diffByte (s.readV x) (s.readV y)) (noBorrowFlag (s.readV x) (s.readV y)))

/-- `8xy6`: V[y] shifted right, VF its bit 0 (41_alu.md R95). -/
def execShrReg (x y : Reg) (s : State) : Host.Outcome State Fault Refusal :=
  retire (s.begin.writeRF x (shiftRightByte (s.readV y)) (bit0Flag (s.readV y)))

/-- `8xy7`: V[y] − V[x], VF not borrow (41_alu.md R96). -/
def execSubnReg (x y : Reg) (s : State) : Host.Outcome State Fault Refusal :=
  retire (s.begin.writeRF x (diffByte (s.readV y) (s.readV x)) (noBorrowFlag (s.readV y) (s.readV x)))

/-- `8xyE`: V[y] shifted left, VF its bit 7 (41_alu.md R97). -/
def execShlReg (x y : Reg) (s : State) : Host.Outcome State Fault Refusal :=
  retire (s.begin.writeRF x (shiftLeftByte (s.readV y)) (bit7Flag (s.readV y)))

/-- `Cxkk`: one fresh random byte masked by kk (41_alu.md R98). -/
def execRnd (x : Reg) (kk : Byte) (s : State) : Host.Outcome State Fault Refusal :=
  retire (s.begin.drawRandom.2.writeV x (s.begin.drawRandom.1 &&& kk))

end Sys2Proof.Machine
end

