-- ==== Sys2Proof/Machine/ControlFlow.lean ====
section
/-! DEFINITION. Control flow: `00EE`, `1nnn`, `2nnn`, `3xkk`, `4xkk`, `5xy0`, `9xy0`, `Bnnn` (40_control_flow.md R78 to R86). Each meaning takes
the state at the start of the STEP, PC being the instruction's own address (log 16). -/

namespace Sys2Proof.Machine

/-- `00EE` (40_control_flow.md R78). -/
def execRet (s : State) : Host.Outcome State Fault Refusal :=
  finish s <|
    if h : 0 < s.sp.val then .ok { s.begin.drop with pc := s.top h }
    else .error (raiseFault .stackUnderflow 0)

/-- `1nnn` (40_control_flow.md R79). -/
def execJp (nnn : Addr12) (s : State) : Host.Outcome State Fault Refusal :=
  retire { s.begin with pc := zextAddr nnn }

/-- `2nnn`: pushes the advanced PC (40_control_flow.md R80, 70_reset_and_hazards.md R144). -/
def execCall (nnn : Addr12) (s : State) : Host.Outcome State Fault Refusal :=
  finish s <|
    if h : s.sp.val < Config.stackDepth then .ok { s.begin.push s.begin.pc h with pc := zextAddr nnn }
    else .error (raiseFault .stackOverflow s.sp.val)

/-- `3xkk` (40_control_flow.md R81). -/
def execSeImm (x : Reg) (kk : Byte) (s : State) : Host.Outcome State Fault Refusal :=
  retire (s.begin.skipIf (s.readV x == kk))

/-- `4xkk` (40_control_flow.md R82). -/
def execSneImm (x : Reg) (kk : Byte) (s : State) : Host.Outcome State Fault Refusal :=
  retire (s.begin.skipIf (s.readV x != kk))

/-- `5xy0` (40_control_flow.md R83). -/
def execSeReg (x y : Reg) (s : State) : Host.Outcome State Fault Refusal :=
  retire (s.begin.skipIf (s.readV x == s.readV y))

/-- `9xy0` (40_control_flow.md R84). -/
def execSneReg (x y : Reg) (s : State) : Host.Outcome State Fault Refusal :=
  retire (s.begin.skipIf (s.readV x != s.readV y))

/-- `Bnnn`: `trunc_16(nnn + V0)` (40_control_flow.md R85). -/
def execJpV0 (nnn : Addr12) (s : State) : Host.Outcome State Fault Refusal :=
  retire { s.begin with pc := zextAddr nnn + zextByte (s.readV 0) }

end Sys2Proof.Machine
end

