-- ==== Sys2Proof/Machine/Display.lean ====
section
/-! DEFINITION. Display: `00E0` and the XOR compositor `Dxyn` (43_display.md R108 to R112), pixel by pixel as the spec writes it, and beside it
the row-word form of R109. -/

namespace Sys2Proof.Machine

/-- `00E0` (43_display.md R108). -/
def execCls (s : State) : Host.Outcome State Fault Refusal :=
  retire { s.begin with fb := blankFrame, drawFlag := true }

/-- The sprite bit of a column: bit 7 is the leftmost (43_display.md R110). PRESUMED by the spec, log 6. -/
def spriteBit (sprite : Byte) (col : Nat) : Bool := sprite.getLsbD (7 - col)

/-- One column of a sprite row, on the row word and the collision so far (43_display.md R109). A column past the right edge does
nothing; the spec's loop ends there, and every later column lies past the edge as well. DEDUCED, log 17. -/
def drawColumn (sprite : Byte) (xc : Nat) (acc : BitVec 64 × Bool) (col : Nat) : BitVec 64 × Bool :=
  if 64 ≤ xc + col then acc
  else if spriteBit sprite col then (flipPixel acc.1 (xc + col), acc.2 || rowPixel acc.1 (xc + col))
  else acc

/-- One sprite row: the columns 0 to 7 in order (43_display.md R109). -/
def drawRow (sprite : Byte) (xc : Nat) (acc : BitVec 64 × Bool) : BitVec 64 × Bool :=
  (List.range 8).foldl (drawColumn sprite xc) acc

/-- `k` sprite rows from row `row` on: rows past the bottom end the loop before their byte is read (43_display.md R109). -/
def drawRows (m : Memory) (base xc yc : Nat) : Nat → Nat → FrameBuffer × Bool → Except FaultEvent (FrameBuffer × Bool)
  | 0, _, acc => .ok acc
  | k + 1, row, acc =>
    if h : yc + row < 32 then
      match memRead m (base + row) with
      | .error f => .error f
      | .ok sprite =>
        let d := drawRow sprite xc (acc.1[yc + row], acc.2)
        drawRows m base xc yc k (row + 1) (acc.1.set (yc + row) d.1, d.2)
    else .ok acc

/-- The whole draw of `n` rows at (xc, yc) on a framebuffer: the new framebuffer and the collision (43_display.md R109). -/
def drawSprite (m : Memory) (base xc yc n : Nat) (fb : FrameBuffer) : Except FaultEvent (FrameBuffer × Bool) :=
  drawRows m base xc yc n 0 (fb, false)

/-- `Dxyn`: the origin from V[x] and V[y] as they were, VF the collision, drawFlag set (43_display.md R109, 30_encoding.md R72). -/
def execDrw (x y : Reg) (n : Height) (s : State) : Host.Outcome State Fault Refusal :=
  finish s <|
    match drawSprite s.mem s.i.toNat (originColumn (s.readV x)) (originRow (s.readV y)) n.val s.fb with
    | .error f => .error f
    | .ok d => .ok { s.begin.writeV regF (flagByte d.2) with fb := d.1, drawFlag := true }

/-- The row word a sprite byte covers from column `xc`: `(zext_64(s) << 56) >> xc` (43_display.md R109). -/
def spriteMask (sprite : Byte) (xc : Nat) : BitVec 64 := (sprite.setWidth 64 <<< 56) >>> xc

/-- The row-word form of one sprite row (43_display.md R109). -/
def drawRowWord (sprite : Byte) (xc : Nat) (acc : BitVec 64 × Bool) : BitVec 64 × Bool :=
  (acc.1 ^^^ spriteMask sprite xc, acc.2 || (acc.1 &&& spriteMask sprite xc) != 0)

end Sys2Proof.Machine
end

