-- ==== Sys2Proof/Machine/IndexMemory.lean ====
section
/-! DEFINITION. Index register and memory transfer: `Annn`, `Fx1E`, `Fx29`, `Fx33`, `Fx55`, `Fx65` (42_index_memory.md R101 to R107). -/

namespace Sys2Proof.Machine

/-- `Annn` (42_index_memory.md R101). -/
def execLdI (nnn : Addr12) (s : State) : Host.Outcome State Fault Refusal :=
  retire { s.begin with i := zextAddr nnn }

/-- `Fx1E`: `trunc_16(I + V[x])`, no flag (42_index_memory.md R102). -/
def execAddI (x : Reg) (s : State) : Host.Outcome State Fault Refusal :=
  retire { s.begin with i := s.i + zextByte (s.readV x) }

/-- `Fx29` (42_index_memory.md R103). -/
def execLdF (x : Reg) (s : State) : Host.Outcome State Fault Refusal :=
  retire { s.begin with i := glyphAddr (s.readV x) }

/-- `Fx33`: three digits at I, I+1, I+2; I keeps its value (42_index_memory.md R104). -/
def execLdB (x : Reg) (s : State) : Host.Outcome State Fault Refusal :=
  finish s <|
    match memWriteBlock s.params s.mem s.i.toNat (decimalDigits (s.readV x)) with
    | .error f => .error f
    | .ok m => .ok { s.begin with mem := m }

/-- `Fx55`: V0..Vx at I, I+1, …; I moves past them (42_index_memory.md R105). -/
def execStoreRegs (x : Reg) (s : State) : Host.Outcome State Fault Refusal :=
  finish s <|
    match memWriteBlock s.params s.mem s.i.toNat (s.regBlock x) with
    | .error f => .error f
    | .ok m => .ok { s.begin with mem := m, i := indexAfterBlock s.i x }

/-- `Fx65`: V0..Vx from I, I+1, …, every byte read before any register is written; I moves past them (42_index_memory.md R106). -/
def execLoadRegs (x : Reg) (s : State) : Host.Outcome State Fault Refusal :=
  finish s <|
    match memReadBlock s.mem s.i.toNat (x.val + 1) with
    | .error f => .error f
    | .ok bs => .ok { s.begin with v := setRegsFrom s.v 0 bs, i := indexAfterBlock s.i x }

end Sys2Proof.Machine
end

