-- ==== Sys2Proof/Machine/InputTimers.lean ====
section
/-! DEFINITION. Key input, the key wait and timer access: `Ex9E`, `ExA1`, `Fx07`, `Fx0A`, `Fx15`, `Fx18` (44_input_timers.md R113 to R121). -/

namespace Sys2Proof.Machine

/-- `Ex9E` (44_input_timers.md R113). -/
def execSkp (x : Reg) (s : State) : Host.Outcome State Fault Refusal :=
  finish s <|
    match keyIndex (s.readV x) with
    | .error f => .error f
    | .ok k => .ok (s.begin.skipIf s.keys[k])

/-- `ExA1` (44_input_timers.md R114). -/
def execSknp (x : Reg) (s : State) : Host.Outcome State Fault Refusal :=
  finish s <|
    match keyIndex (s.readV x) with
    | .error f => .error f
    | .ok k => .ok (s.begin.skipIf (!s.keys[k]))

/-- `Fx07` (44_input_timers.md R118). -/
def execLdVDt (x : Reg) (s : State) : Host.Outcome State Fault Refusal :=
  retire (s.begin.writeV x s.dt)

/-- The wait repeats: PC goes back to the instruction and the snapshot is taken anew (44_input_timers.md R116). -/
def State.waitAgain (s : State) : State := { s with pc := s.pc - 2, keysPrev := s.keys }

/-- The entry of a wait at `addr` (44_input_timers.md R116). -/
def State.enterWait (s : State) (addr : Word) : State := { s.waitAgain with waitState := .waiting, waitAddr := addr }

/-- A poll of the wait: it resolves with the lowest released key, or repeats (44_input_timers.md R116). -/
def State.pollWait (s : State) (x : Reg) : State :=
  match firstReleased s.keysPrev s.keys with
  | some k => { s.writeV x (keyByte k) with keysPrev := s.keys, waitState := .idle }
  | none => s.waitAgain

/-- `Fx0A`: the only instruction that does not leave the wait by itself (44_input_timers.md R115, R116). -/
def execLdVK (x : Reg) (s : State) : Host.Outcome State Fault Refusal :=
  if s.waitState = .idle ∨ s.waitAddr ≠ s.pc then retire (s.advance.enterWait s.pc)
  else retire (s.advance.pollWait x)

/-- `Fx15` (44_input_timers.md R119). -/
def execLdDtV (x : Reg) (s : State) : Host.Outcome State Fault Refusal :=
  retire { s.begin with dt := s.readV x }

/-- `Fx18` (44_input_timers.md R120). -/
def execLdStV (x : Reg) (s : State) : Host.Outcome State Fault Refusal :=
  retire { s.begin with st := s.readV x }

end Sys2Proof.Machine
end

