-- ==== Sys2Proof/Machine/Step.lean ====
section
/-! DEFINITION. STEP (30_encoding.md R66), and the placing of a word where STEP fetches it. -/

namespace Sys2Proof.Machine

/-- One STEP: nothing on a halted core, otherwise fetch, decode, execute (30_encoding.md R66). -/
def step (s : State) : Host.Outcome State Fault Refusal :=
  if s.halted then haltedStep s
  else
    match fetch s with
    | .error f => .next (takeFault s f)
    | .ok w =>
      match decodeWord w with
      | .ok i => exec i s
      | .error _ => unrecognizedStep s w

/-- The address the next word is placed at: PC, or the reset PC where PC lies outside memory and nothing can be fetched at
it. Log 12. -/
def State.placeAddr (s : State) : Word := if s.pc.toNat + 1 < Config.memSize then s.pc else 0x200

/-- `s` with the word stored where STEP fetches its next instruction, high byte first, on a core that is not halted. Log 12. -/
def State.withFetchWord (s : State) (nbits w : Nat) : State :=
  { s with
    pc := s.placeAddr
    mem := s.mem.pokeBlock s.placeAddr.toNat [highByte (tableWord nbits w), lowByte (tableWord nbits w)]
    halted := false }

end Sys2Proof.Machine
end

