-- ==== Sys2Proof/Machine/HostOps.lean ====
section
/-! DEFINITION. The host's operations (10_state.md R39), each one atomic function of the state: its reply and the state it leaves
(log 11). -/

namespace Sys2Proof.Machine

/-- The host's operations (10_state.md R39). -/
inductive HostOp where
  /-- INIT (70_reset_and_hazards.md R138). -/
  | init
  /-- LOAD(bytes) (R140). -/
  | load (bytes : List Byte)
  /-- STEP (30_encoding.md R66). -/
  | step
  /-- TICK (60_exceptions.md R134). -/
  | tick
  /-- SET_KEY(k, p) (10_state.md R40). -/
  | setKey (k : Nat) (p : Bool)
  /-- READ_FB (R41). -/
  | readFb
  /-- CLEAR_DRAW_FLAG (R42). -/
  | clearDrawFlag
  /-- The read of `soundActive` (R38). -/
  | readSoundActive
  /-- The read of `lastStatus` (R31). -/
  | readLastStatus
  /-- The read of `diagWord` (R31). -/
  | readDiagWord
  /-- The read of `halted` (R30). -/
  | readHalted
  /-- The read of `faultCode` (R30). -/
  | readFaultCode
  /-- The read of `faultInfo` (R30). -/
  | readFaultInfo
  deriving DecidableEq, Repr

/-- What an operation returns to the host. -/
inductive HostReply where
  /-- Nothing. -/
  | done
  /-- LOAD accepted the program (70_reset_and_hazards.md R140). -/
  | loadOk
  /-- LOAD rejected it (R140, 60_exceptions.md R129). -/
  | loadTooLarge
  /-- STEP: Ok (00_scope.md R12). -/
  | stepOk
  /-- STEP: Unrecognized(word) (R12). -/
  | stepUnrecognized (w : Word)
  /-- STEP: Fault(code) (R12). -/
  | stepFault (code : FaultCode)
  /-- READ_FB: the pixel grid and drawFlag (10_state.md R41). -/
  | frame (fb : FrameBuffer) (drawFlag : Bool)
  /-- A one-bit read. -/
  | bit (b : Bool)
  /-- The read of `lastStatus`. -/
  | status (st : Status)
  /-- The read of `diagWord`. -/
  | word (w : Word)
  /-- The read of `faultCode`. -/
  | code (c : FaultCode)
  /-- The read of `faultInfo`. -/
  | info (n : BitVec 17)
  deriving DecidableEq, Repr

/-- `soundActive = (ST != 0)` (10_state.md R38). -/
def State.soundActive (s : State) : Bool := s.st != 0

/-- INIT: every element of the spec at its reset value, memory holding the parameter `FONT_TABLE`. The model's own fields stay: the
parameters, and the count of draws, so that no draw repeats (70_reset_and_hazards.md R138; log 2, log 5, log 15). -/
def State.init (s : State) : State :=
  { State.reset with mem := initialMemory s.params, params := s.params, freeDraws := s.freeDraws }

/-- LOAD(bytes): all of it or nothing (70_reset_and_hazards.md R140). -/
def State.load (s : State) (bytes : List Byte) : State × HostReply :=
  if s.params.maxProgramLen < bytes.length then (s, .loadTooLarge)
  else ({ s with mem := s.mem.pokeBlock Config.programBase bytes }, .loadOk)

/-- A timer's countdown, clamped at 0 (60_exceptions.md R134). -/
def countdown (t : Byte) : Byte := if t = 0 then 0 else t - 1

/-- TICK (60_exceptions.md R134). -/
def State.tick (s : State) : State := { s with dt := countdown s.dt, st := countdown s.st }

/-- The outcome a STEP returns, read from the latches it leaves (10_state.md R31). -/
def State.stepReply (t : State) : HostReply :=
  match t.lastStatus with
  | .ok => .stepOk
  | .unrecognized => .stepUnrecognized t.diagWord
  | .fault => .stepFault t.faultCode

/-- STEP as the host sees it. On a halted core it sets `lastStatus` and returns the latched fault (60_exceptions.md R126);
otherwise it is the machine's step. A refusal passes through. -/
def State.stepOp (s : State) : Except Refusal (State × HostReply) :=
  match step s with
  | .next t => .ok (t, t.stepReply)
  | .fault (.halted code) => .ok ({ s with lastStatus := .fault }, .stepFault code)
  | .refused r => .error r

/-- SET_KEY(k, p), refused for k outside 0..15 (10_state.md R40, R43). -/
def State.setKey (s : State) (k : Nat) (p : Bool) : Except Refusal State :=
  if h : k < 16 then .ok { s with keys := s.keys.set k p h } else .error (.keyNumberOutOfRange k)

/-- One host operation: the state it leaves and its reply, or its refusal (10_state.md R39). -/
def hostAct (op : HostOp) (s : State) : Except Refusal (State × HostReply) :=
  match op with
  | .init => .ok (s.init, .done)
  | .load bytes => .ok (s.load bytes)
  | .step => s.stepOp
  | .tick => .ok (s.tick, .done)
  | .setKey k p =>
    match s.setKey k p with
    | .ok t => .ok (t, .done)
    | .error r => .error r
  | .readFb => .ok (s, .frame s.fb s.drawFlag)
  | .clearDrawFlag => .ok ({ s with drawFlag := false }, .done)
  | .readSoundActive => .ok (s, .bit s.soundActive)
  | .readLastStatus => .ok (s, .status s.lastStatus)
  | .readDiagWord => .ok (s, .word s.diagWord)
  | .readHalted => .ok (s, .bit s.halted)
  | .readFaultCode => .ok (s, .code s.faultCode)
  | .readFaultInfo => .ok (s, .info s.faultInfo)

/-- A sequence of host operations, in the host's order (10_state.md R39); it ends at the first refusal. -/
def hostRun : List HostOp → State → Except Refusal State
  | [], s => .ok s
  | op :: rest, s =>
    match hostAct op s with
    | .ok (t, _) => hostRun rest t
    | .error r => .error r

end Sys2Proof.Machine
end

