-- ==== Sys2Proof/Safety.lean ====
section
/-! DEFINITION. What counts as a safe run, and the invariants of the core (10_state.md R36). -/

namespace Sys2Proof.Machine

/-- The core has not faulted: a halted state is never a successful end of a run (60_exceptions.md R126). -/
def State.safe (s : State) : Prop := s.halted = false

/-- `Reaches k s t`: `k` steps lead from s to t, none of them from a halted state. -/
def Reaches : Nat → State → State → Prop
  | 0, s, t => s = t
  | k + 1, s, t => ∃ u, step s = .next u ∧ Reaches k u t

/-- The font region holds `FONT_TABLE` (20_memory.md R47, R49). -/
def State.fontIntact (s : State) : Prop := ∀ k : Fin 80, s.mem.read k.val = s.params.fontTable[k]

/-- The invariants of the core between operations. -/
structure State.Inv (s : State) : Prop where
  /-- Memory keeps its canonical form and lists no address outside memory (20_memory.md R44; log 14). -/
  memory_wf : s.mem.wf = true
  /-- With FONT_WRITE_POLICY = Fault the font region is `FONT_TABLE` (10_state.md R36). -/
  font : s.params.fontWritePolicy = .fault → s.fontIntact
  /-- `waitState` = Waiting only while `PC` = `waitAddr` (10_state.md R36). -/
  waiting : s.waitState = .waiting → s.pc = s.waitAddr
  /-- No instruction leaves a PC above 0x10FE (10_state.md R19, 40_control_flow.md R86). -/
  pc_bound : s.pc.toNat ≤ 0x10FE
  /-- A return address is the address after a fetched call, at most 0x1000 (40_control_flow.md R80, 20_memory.md R53). DEDUCED, log 19. -/
  stack_bound : ∀ j : Fin 16, s.stack[j].toNat ≤ 0x1000
  /-- The core is halted exactly when its last STEP faulted (10_state.md R30, R31; 60_exceptions.md R125, R126). DEDUCED, log 19. -/
  latch_status : s.halted = true ↔ s.lastStatus = .fault
  /-- A fault code is latched exactly when the core is halted (10_state.md R30). DEDUCED, log 19. -/
  latch_code : s.halted = true ↔ s.faultCode ≠ .none
  /-- Without a fault the info is 0 (10_state.md R30, 60_exceptions.md R123). DEDUCED, log 19. -/
  latch_info : s.halted = false → s.faultInfo = 0

end Sys2Proof.Machine
end

