-- ==== Sys2Proof/Certificates/Slice0/Obligations.lean ====
section
/-! DEFINITION. The statements for the provers. A statement that gives the next state as a record says all of it at once: the
result, that the instruction completes, and its frame, since every field the record does not name is that of the state before. -/

namespace Sys2Proof.Spec

open Sys2Proof.Machine

/-- The frame of an executed instruction that leaves PC at `pc`: the wait is left and the status is Ok; everything else stays. -/
def executed (s : State) (pc : Word) : State := { s with pc := pc, waitState := .idle, lastStatus := .ok }

/-- The state before the STEP plus the latch (60_exceptions.md R125). -/
def faulted (s : State) (code : FaultCode) (info : Nat) : State :=
  { s with halted := true, faultCode := code, faultInfo := BitVec.ofNat 17 info, lastStatus := .fault }

/-- VF follows its flag: x is not VF, or the parameter is FlagWins (30_encoding.md R73). -/
def flagKept (s : State) (x : Reg) : Prop := x ≠ 15 ∨ s.params.vfAlias = .flagWins

/-- Registers with the result in V[x] and then the flag in VF. -/
def withFlag (s : State) (x : Reg) (r : Nat) (f : Prop) [Decidable f] : Vector Byte 16 :=
  (s.v.set x (BitVec.ofNat 8 r)).set 15 (if f then 1 else 0)

/-- The word at PC decodes to `i`, on a core that is not halted: what the next STEP runs. -/
def nextIs (s : State) (i : Instr) : Prop :=
  s.halted = false ∧ s.pc.toNat ≤ 0xFFE ∧ decodeBytes [s.mem.read s.pc.toNat, s.mem.read (s.pc.toNat + 1)] = .ok i

/-- Stores may reach address `a`: it lies in memory, and outside the font region or under Allow (20_memory.md R52). -/
def storable (s : State) (a : Nat) : Prop := a < 4096 ∧ (80 ≤ a ∨ s.params.fontWritePolicy = .allow)

/-- The sprite of `drw x y n` has a 1 bit on pixel (r, c): the origin wraps, the rows and columns are clipped (43_display.md R110). -/
def spriteCovers (s : State) (x y : Reg) (n : Height) (r : Fin 32) (c : Fin 64) : Prop :=
  s.v[y].toNat % 32 ≤ r.val ∧ r.val < s.v[y].toNat % 32 + n.val ∧
  s.v[x].toNat % 64 ≤ c.val ∧ c.val < s.v[x].toNat % 64 + 8 ∧
  (s.mem.read (s.i.toNat + (r.val - s.v[y].toNat % 32))).getLsbD (7 - (c.val - s.v[x].toNat % 64)) = true

/-- The number of rows drawn, `min(n, 32 − yc)` (43_display.md R110). -/
def rowsDrawn (s : State) (y : Reg) (n : Height) : Nat := min n.val (32 - s.v[y].toNat % 32)

/-- Key k was pressed at the snapshot and is released now (44_input_timers.md R116). -/
def released (s : State) (k : Key) : Prop := s.keysPrev[k] = true ∧ s.keys[k] = false

end Sys2Proof.Spec

open Sys2Proof Sys2Proof.Machine Sys2Proof.Spec

/-! ### Encoding -/

/-- Words written out from the spec's encodings, one or more of every family, decode to their instructions (30_encoding.md R69;
95_test_vectors.md E3), and one word is refused. That 5121 is refused is the spec's decision D13 (30_encoding.md R70; log 13). -/
def Obligations.SpecWordsDecode : Prop :=
  decodeTableWord 16 0x00E0 = some .cls ∧ decodeTableWord 16 0x00EE = some .ret ∧
  decodeTableWord 16 0x1ABC = some (.jp 0xABC) ∧ decodeTableWord 16 0x8ABE = some (.shlReg 10 11) ∧
  decodeTableWord 16 0x7203 = some (.addImm 2 0x03) ∧ decodeTableWord 16 0xD123 = some (.drw 1 2 3) ∧
  decodeTableWord 16 0xE09E = some (.skp 0) ∧ decodeTableWord 16 0xFF65 = some (.loadRegs 15) ∧
  decodeTableWord 16 0x5121 = none

/-- Decoding the word, the bytes or the table number of an instruction gives that instruction back, for every instruction and
every value of its operands. -/
def Obligations.DecodeOfEncode : Prop :=
  ∀ i : Instr, decodeWord (encode i) = .ok i ∧ decodeBytes (encodeBytes i) = .ok i ∧
    decodeTableWord 16 (encode i).toNat = some i

/-- Every word that decodes is the word of its instruction: no bit of it is dropped. -/
def Obligations.EncodeOfDecode : Prop :=
  ∀ (w : Word) (i : Instr), decodeWord w = .ok i → encode i = w

/-- A word selects the instruction of the row it meets, and no two rows overlap (30_encoding.md R69). -/
def Obligations.DecodeFollowsOpcodeMap : Prop :=
  ∀ w : Word,
    (∀ r ∈ opcodeRows, ∀ r' ∈ opcodeRows, r.meets w = true → r'.meets w = true → r = r') ∧
    (∀ r ∈ opcodeRows, r.meets w = true → ∃ i, decodeWord w = .ok i ∧ i.row = r) ∧
    (∀ i, decodeWord w = .ok i → i.row.meets w = true)

/-- The words the decoder rejects are exactly those the spec lists class by class (30_encoding.md R70).
That `5xyN` and `9xyN` with N != 0 are listed is the spec's decision D13 (log 13). -/
def Obligations.RejectedWordsAreTheListed : Prop :=
  ∀ w : Word, decodeWord w = .error (.unrecognized w) ↔ Word.listedUnrecognized w.toNat

/-! ### The STEP -/

/-- A STEP runs the instruction its two bytes decode to, from the state at the start of the STEP (30_encoding.md R66).
`exec` makes the PC advance itself (log 16). -/
def Obligations.StepRunsDecodedInstruction : Prop :=
  ∀ (s : State) (i : Instr), nextIs s i → step s = exec i s

/-- The word of any instruction, placed where STEP fetches, is the instruction the very next STEP runs. `withFetchWord` is
the model's own tool, which stands for a load and is no operation of the spec (log 12). -/
def Obligations.PlacedWordRunsNext : Prop :=
  ∀ (s : State) (i : Instr),
    step (s.withFetchWord 16 (encode i).toNat) = exec i (s.withFetchWord 16 (encode i).toNat)

/-- An unrecognized word advances PC, leaves the wait and latches the diagnostic; nothing else changes, and the STEP returns
Unrecognized(w) (30_encoding.md R71). The latches are the spec's decision D14. -/
def Obligations.UnrecognizedWordOnlyAdvances : Prop :=
  ∀ (s : State) (w : Word), s.halted = false → s.pc.toNat ≤ 0xFFE →
    w.toNat = 256 * (s.mem.read s.pc.toNat).toNat + (s.mem.read (s.pc.toNat + 1)).toNat →
    Word.listedUnrecognized w.toNat →
    let t := { s with pc := s.pc + 2, waitState := .idle, diagWord := w, lastStatus := .unrecognized }
    step s = .next t ∧ s.stepOp = .ok (t, .stepUnrecognized w)

/-- Fetch reads a big-endian word up to PC = 0xFFE; from 0xFFF on the STEP faults with FetchRange, its info PC (20_memory.md R53).
The bound is the spec's decision D4. -/
def Obligations.FetchIsBigEndianAndBounded : Prop :=
  ∀ s : State,
    (s.pc.toNat ≤ 0xFFE → ∃ w : Word, fetch s = .ok w ∧
      w.toNat = 256 * (s.mem.read s.pc.toNat).toNat + (s.mem.read (s.pc.toNat + 1)).toNat) ∧
    (0xFFF ≤ s.pc.toNat → s.halted = false → step s = .next (faulted s .fetchRange s.pc.toNat))

/-- A faulting STEP leaves the state before it plus the latch, and returns the fault (60_exceptions.md R125).
The spec's decision D7 (log 1). -/
def Obligations.FaultIsPreciseAndAtomic : Prop :=
  ∀ s t : State, s.halted = false → step s = .next t → t.lastStatus = .fault →
    t = { s with halted := true, faultCode := t.faultCode, faultInfo := t.faultInfo, lastStatus := .fault } ∧
    t.faultCode ≠ .none ∧ s.stepOp = .ok (t, .stepFault t.faultCode)

/-- On a halted core STEP executes nothing and returns the latched fault; INIT alone clears the latch (60_exceptions.md R126). -/
def Obligations.HaltedCoreExecutesNothing : Prop :=
  ∀ s : State, s.halted = true →
    step s = .fault (.halted s.faultCode) ∧
    s.stepOp = .ok ({ s with lastStatus := .fault }, .stepFault s.faultCode) ∧
    (∀ (op : HostOp) (t : State) (r : HostReply), op ≠ .init → hostAct op s = .ok (t, r) →
      t.halted = true ∧ t.faultCode = s.faultCode ∧ t.faultInfo = s.faultInfo) ∧
    s.init.halted = false ∧ s.init.faultCode = .none ∧ s.init.faultInfo = 0

/-- An executed instruction faults only with a code the spec gives that instruction (60_exceptions.md R124).
The spec marks the list as its own derivation. -/
def Obligations.FaultsComeOnlyFromTheirInstructions : Prop :=
  ∀ (i : Instr) (s t : State), s.halted = false → exec i s = .next t → t.halted = true →
    (i = .ret ∧ t.faultCode = .stackUnderflow) ∨
    ((∃ nnn, i = .call nnn) ∧ t.faultCode = .stackOverflow) ∨
    (((∃ x y n, i = .drw x y n) ∨ ∃ x, i = .loadRegs x) ∧ t.faultCode = .memReadRange) ∨
    (((∃ x, i = .ldB x) ∨ ∃ x, i = .storeRegs x) ∧ (t.faultCode = .memWriteRange ∨ t.faultCode = .fontWrite)) ∨
    (((∃ x, i = .skp x) ∨ ∃ x, i = .sknp x) ∧ t.faultCode = .keyRange)

/-! ### Control flow -/

/-- `1nnn` (40_control_flow.md R79). -/
def Obligations.JumpSetsPc : Prop :=
  ∀ (nnn : Addr12) (s : State), exec (.jp nnn) s = .next (executed s (BitVec.ofNat 16 nnn.toNat))

/-- `Bnnn`: the sum with V0 is kept whole (40_control_flow.md R85). That it is not reduced to 12 bits is the spec's decision D20. -/
def Obligations.JumpAddsV0 : Prop :=
  ∀ (nnn : Addr12) (s : State), ∃ t : State, exec (.jpV0 nnn) s = .next t ∧
    t.pc.toNat = nnn.toNat + s.v[(0 : Reg)].toNat ∧ t = executed s t.pc

/-- `2nnn`: with room, the address after the call goes into the next slot; on a full stack it faults (40_control_flow.md R80).
Depth, indexing and the latch are the spec's decisions D6 and D7 (logs 1 and 8). -/
def Obligations.CallPushesReturnAddress : Prop :=
  ∀ (nnn : Addr12) (s : State),
    (∀ h : s.sp.val < 16, ∃ t : State, exec (.call nnn) s = .next t ∧
      t.sp.val = s.sp.val + 1 ∧ t.stack = s.stack.set s.sp.val (s.pc + 2) h ∧ t.pc.toNat = nnn.toNat ∧
      t = { executed s t.pc with sp := t.sp, stack := t.stack }) ∧
    (s.sp.val = 16 → exec (.call nnn) s = .next (faulted s .stackOverflow 16))

/-- `00EE`: PC from the top slot, which keeps its value; on an empty stack it faults (40_control_flow.md R78). -/
def Obligations.ReturnPopsTop : Prop :=
  ∀ s : State,
    (0 < s.sp.val → ∃ t : State, exec .ret s = .next t ∧
      t.sp.val = s.sp.val - 1 ∧ s.stack[s.sp.val - 1]? = some t.pc ∧ t = { executed s t.pc with sp := t.sp }) ∧
    (s.sp.val = 0 → exec .ret s = .next (faulted s .stackUnderflow 0))

/-- `2nnn` followed later by `00EE` restores PC to the instruction after the call (40_control_flow.md R80). -/
def Obligations.CallThenReturnComesBack : Prop :=
  ∀ (nnn : Addr12) (s t u : State), s.sp.val < 16 → exec (.call nnn) s = .next t →
    u.sp = t.sp → u.stack = t.stack →
    ∃ r : State, exec .ret u = .next r ∧ r.pc = s.pc + 2 ∧ r.sp = s.sp

/-- The four skips: PC moves by 4 when the condition holds and by 2 otherwise (40_control_flow.md R81 to R84). -/
def Obligations.SkipsMoveByTwoOrFour : Prop :=
  ∀ (x y : Reg) (kk : Byte) (s : State),
    exec (.seImm x kk) s = .next (executed s (if s.v[x] = kk then s.pc + 4 else s.pc + 2)) ∧
    exec (.sneImm x kk) s = .next (executed s (if s.v[x] ≠ kk then s.pc + 4 else s.pc + 2)) ∧
    exec (.seReg x y) s = .next (executed s (if s.v[x] = s.v[y] then s.pc + 4 else s.pc + 2)) ∧
    exec (.sneReg x y) s = .next (executed s (if s.v[x] ≠ s.v[y] then s.pc + 4 else s.pc + 2))

/-- An instruction that is no control transfer and does not fault leaves PC two past its address (40_control_flow.md R86). -/
def Obligations.OnlyTransfersMovePcElsewhere : Prop :=
  ∀ (i : Instr) (s t : State), s.halted = false → exec i s = .next t → t.halted = false → t.pc ≠ s.pc + 2 →
    i = .ret ∨ (∃ nnn, i = .jp nnn) ∨ (∃ nnn, i = .call nnn) ∨ (∃ nnn, i = .jpV0 nnn) ∨
    (∃ x kk, i = .seImm x kk) ∨ (∃ x kk, i = .sneImm x kk) ∨ (∃ x y, i = .seReg x y) ∨ (∃ x y, i = .sneReg x y) ∨
    (∃ x, i = .skp x) ∨ (∃ x, i = .sknp x) ∨ (∃ x, i = .ldVK x)

/-! ### Register loads and ALU -/

/-- `6xkk` and `8xy0`: the value goes to V[x] and no flag is written (41_alu.md R87, R89). -/
def Obligations.LoadsWriteOneRegister : Prop :=
  ∀ (x y : Reg) (kk : Byte) (s : State),
    exec (.ldImm x kk) s = .next { executed s (s.pc + 2) with v := s.v.set x kk } ∧
    exec (.ldReg x y) s = .next { executed s (s.pc + 2) with v := s.v.set x s.v[y] }

/-- `7xkk`: the sum modulo 256, no flag (41_alu.md R88). -/
def Obligations.AddImmediateWraps : Prop :=
  ∀ (x : Reg) (kk : Byte) (s : State), ∃ t : State, exec (.addImm x kk) s = .next t ∧
    t.v[x].toNat = (s.v[x].toNat + kk.toNat) % 256 ∧ (∀ r : Reg, r ≠ x → t.v[r] = s.v[r]) ∧
    t = { executed s (s.pc + 2) with v := t.v }

/-- `8xy1`, `8xy2`, `8xy3`: the bitwise result in V[x], then VF = 0 (41_alu.md R90 to R92). -/
def Obligations.LogicOpsResetVf : Prop :=
  ∀ (x y : Reg) (s : State), flagKept s x →
    exec (.orReg x y) s = .next { executed s (s.pc + 2) with v := (s.v.set x (s.v[x] ||| s.v[y])).set 15 0 } ∧
    exec (.andReg x y) s = .next { executed s (s.pc + 2) with v := (s.v.set x (s.v[x] &&& s.v[y])).set 15 0 } ∧
    exec (.xorReg x y) s = .next { executed s (s.pc + 2) with v := (s.v.set x (s.v[x] ^^^ s.v[y])).set 15 0 }

/-- `8xy4`: the sum modulo 256 in V[x], then VF = 1 when the sum exceeds 255 (41_alu.md R93). -/
def Obligations.AddRegistersSetsCarry : Prop :=
  ∀ (x y : Reg) (s : State), flagKept s x →
    exec (.addReg x y) s = .next { executed s (s.pc + 2) with
      v := withFlag s x ((s.v[x].toNat + s.v[y].toNat) % 256) (255 < s.v[x].toNat + s.v[y].toNat) }

/-- `8xy5` and `8xy7`: the difference modulo 256 in V[x], then VF = 1 when there was no borrow (41_alu.md R94, R96). -/
def Obligations.SubtractsSetNotBorrow : Prop :=
  ∀ (x y : Reg) (s : State), flagKept s x →
    exec (.subReg x y) s = .next { executed s (s.pc + 2) with
      v := withFlag s x (s.v[x].toNat + 256 - s.v[y].toNat) (s.v[y].toNat ≤ s.v[x].toNat) } ∧
    exec (.subnReg x y) s = .next { executed s (s.pc + 2) with
      v := withFlag s x (s.v[y].toNat + 256 - s.v[x].toNat) (s.v[x].toNat ≤ s.v[y].toNat) }

/-- `8xy6` and `8xyE`: V[y] halved or doubled into V[x], then VF = the bit shifted out (41_alu.md R95, R97). -/
def Obligations.ShiftsMoveVyAndKeepTheLostBit : Prop :=
  ∀ (x y : Reg) (s : State), flagKept s x →
    exec (.shrReg x y) s = .next { executed s (s.pc + 2) with
      v := withFlag s x (s.v[y].toNat / 2) (s.v[y].toNat % 2 = 1) } ∧
    exec (.shlReg x y) s = .next { executed s (s.pc + 2) with
      v := withFlag s x (2 * s.v[y].toNat % 256) (128 ≤ s.v[y].toNat) }

/-- Under AnyValue, with x = F, each flag-writing instruction leaves the next free byte in VF and changes nothing else but PC, the
wait, the status and the model's count of draws (30_encoding.md R73). The parameter is the spec's decision D10 (log 3). -/
def Obligations.AnyValueLeavesVfOpen : Prop :=
  ∀ (y : Reg) (s : State) (i : Instr), s.params.vfAlias = .anyValue →
    i ∈ [.orReg 15 y, .andReg 15 y, .xorReg 15 y, .addReg 15 y, .subReg 15 y, .shrReg 15 y, .subnReg 15 y, .shlReg 15 y] →
    exec i s = .next { executed s (s.pc + 2) with
      v := s.v.set 15 (Config.vfAnyValue s.freeDraws), freeDraws := s.freeDraws + 1 }

/-- `Cxkk`: the byte of the next draw under the mask, which leaves no bit outside it, and no flag (41_alu.md R98). The draw is a free
value. The spec's decision D19 (log 2). -/
def Obligations.RandomByteIsMasked : Prop :=
  ∀ (x : Reg) (kk : Byte) (s : State),
    (Config.randByte s.freeDraws &&& kk) &&& ~~~kk = 0 ∧
    exec (.rnd x kk) s = .next { executed s (s.pc + 2) with
      v := s.v.set x (Config.randByte s.freeDraws &&& kk), freeDraws := s.freeDraws + 1 }

/-- After `6xkk` then `7x00`, V[x] = kk (95_test_vectors.md S1). -/
def Obligations.LoadThenAddZeroIsIdentity : Prop :=
  ∀ (x : Reg) (kk : Byte) (s : State), ∃ t u : State,
    exec (.ldImm x kk) s = .next t ∧ exec (.addImm x 0) t = .next u ∧
    u.v[x] = kk ∧ (∀ r : Reg, r ≠ x → u.v[r] = s.v[r])

/-! ### Index register and memory -/

/-- `Annn`, `Fx1E` and `Fx29` write I only (42_index_memory.md R101 to R103).
The 16-bit wrap of `Fx1E` is the spec's decision D20. -/
def Obligations.IndexWritesAreExact : Prop :=
  ∀ (nnn : Addr12) (x : Reg) (s : State),
    exec (.ldI nnn) s = .next { executed s (s.pc + 2) with i := BitVec.ofNat 16 nnn.toNat } ∧
    exec (.addI x) s = .next { executed s (s.pc + 2) with i := BitVec.ofNat 16 ((s.i.toNat + s.v[x].toNat) % 65536) } ∧
    exec (.ldF x) s = .next { executed s (s.pc + 2) with i := BitVec.ofNat 16 (5 * s.v[x].toNat) }

/-- `Fx33`: the three decimal digits at I, I+1, I+2, every other byte and I unchanged; or the fault of the first failing
address (42_index_memory.md R104). The faults are the spec's decisions D3 and D8 (logs 4 and 7). -/
def Obligations.DecimalDigitsAreStored : Prop :=
  ∀ (x : Reg) (s : State),
    ((∀ k, k < 3 → storable s (s.i.toNat + k)) → ∃ t : State, exec (.ldB x) s = .next t ∧
      (t.mem.read s.i.toNat).toNat = s.v[x].toNat / 100 ∧
      (t.mem.read (s.i.toNat + 1)).toNat = s.v[x].toNat / 10 % 10 ∧
      (t.mem.read (s.i.toNat + 2)).toNat = s.v[x].toNat % 10 ∧
      (∀ a, a < s.i.toNat ∨ s.i.toNat + 2 < a → t.mem.read a = s.mem.read a) ∧
      t = { executed s (s.pc + 2) with mem := t.mem }) ∧
    (∀ k, k < 3 → (∀ j, j < k → storable s (s.i.toNat + j)) → ¬ storable s (s.i.toNat + k) →
      exec (.ldB x) s = .next (faulted s (if 4096 ≤ s.i.toNat + k then .memWriteRange else .fontWrite) (s.i.toNat + k)))

/-- `Fx55`: V0..Vx at I, I+1, …, every other byte unchanged, I past them; or the fault of the first failing address
(42_index_memory.md R105). -/
def Obligations.RegisterBlockIsStored : Prop :=
  ∀ (x : Reg) (s : State),
    ((∀ k, k ≤ x.val → storable s (s.i.toNat + k)) → ∃ t : State, exec (.storeRegs x) s = .next t ∧
      (∀ r : Reg, r ≤ x → t.mem.read (s.i.toNat + r.val) = s.v[r]) ∧
      (∀ a, a < s.i.toNat ∨ s.i.toNat + x.val < a → t.mem.read a = s.mem.read a) ∧
      t.i.toNat = s.i.toNat + x.val + 1 ∧
      t = { executed s (s.pc + 2) with mem := t.mem, i := t.i }) ∧
    (∀ k, k ≤ x.val → (∀ j, j < k → storable s (s.i.toNat + j)) → ¬ storable s (s.i.toNat + k) →
      exec (.storeRegs x) s =
        .next (faulted s (if 4096 ≤ s.i.toNat + k then .memWriteRange else .fontWrite) (s.i.toNat + k)))

/-- `Fx65`: V0..Vx from I, I+1, …, the registers above x and memory unchanged, I past the block; or the fault of the first
address outside memory (42_index_memory.md R106). The fault is the spec's decision D3 (log 7). -/
def Obligations.RegisterBlockIsLoaded : Prop :=
  ∀ (x : Reg) (s : State),
    (s.i.toNat + x.val < 4096 → ∃ t : State, exec (.loadRegs x) s = .next t ∧
      (∀ r : Reg, r ≤ x → t.v[r] = s.mem.read (s.i.toNat + r.val)) ∧
      (∀ r : Reg, x < r → t.v[r] = s.v[r]) ∧
      t.i.toNat = s.i.toNat + x.val + 1 ∧
      t = { executed s (s.pc + 2) with v := t.v, i := t.i }) ∧
    (4096 ≤ s.i.toNat + x.val → exec (.loadRegs x) s = .next (faulted s .memReadRange (max s.i.toNat 4096)))

/-- `Fx55` and then, with I at the same base and the memory it left, `Fx65` restores V0..Vx (42_index_memory.md R106).
The spec marks it as its own derivation. -/
def Obligations.StoreThenLoadRestores : Prop :=
  ∀ (x : Reg) (s t u : State), s.halted = false → exec (.storeRegs x) s = .next t → t.halted = false →
    u.mem = t.mem → u.i = s.i →
    ∃ r : State, exec (.loadRegs x) u = .next r ∧ r.lastStatus = .ok ∧ (∀ k : Reg, k ≤ x → r.v[k] = s.v[k]) ∧
      (∀ k : Reg, x < k → r.v[k] = u.v[k])

/-- A byte stored by `Fx55` is seen by the very next fetch: where the block is the word of `i` at the next PC, the next STEP
runs `i` (20_memory.md R60). -/
def Obligations.StoredWordIsFetchedNext : Prop :=
  ∀ (s t : State) (i : Instr), s.halted = false → exec (.storeRegs 1) s = .next t → t.halted = false →
    s.i = s.pc + 2 → s.pc.toNat + 3 < 4096 → s.v[(0 : Reg)] = highByte (encode i) → s.v[(1 : Reg)] = lowByte (encode i) →
    step t = exec i t

/-! ### Display -/

/-- `00E0`: every pixel 0 and drawFlag set (43_display.md R108). -/
def Obligations.ClearBlanksEveryPixel : Prop :=
  ∀ s : State, ∃ t : State, exec .cls s = .next t ∧ (∀ (r : Fin 32) (c : Fin 64), t.pixel r c = false) ∧
    t = { executed s (s.pc + 2) with fb := t.fb, drawFlag := true }

/-- `Dxyn`: every pixel under a 1 bit of the clipped sprite is inverted and no other changes; VF is 1 exactly when one of them was
ON; drawFlag is set (43_display.md R109, R110). The bit order and the origin are the spec's decisions D15 and D9 (log 6). -/
def Obligations.DrawInvertsCoveredPixels : Prop :=
  ∀ (x y : Reg) (n : Height) (s : State), (rowsDrawn s y n = 0 ∨ s.i.toNat + rowsDrawn s y n ≤ 4096) →
    ∃ t : State, exec (.drw x y n) s = .next t ∧
      (∀ (r : Fin 32) (c : Fin 64), spriteCovers s x y n r c → t.pixel r c = !s.pixel r c) ∧
      (∀ (r : Fin 32) (c : Fin 64), ¬ spriteCovers s x y n r c → t.pixel r c = s.pixel r c) ∧
      (t.v[(15 : Reg)] = 0 ∨ t.v[(15 : Reg)] = 1) ∧
      (t.v[(15 : Reg)] = 1 ↔ ∃ (r : Fin 32) (c : Fin 64), spriteCovers s x y n r c ∧ s.pixel r c = true) ∧
      (∀ r : Reg, r ≠ 15 → t.v[r] = s.v[r]) ∧
      t = { executed s (s.pc + 2) with v := t.v, fb := t.fb, drawFlag := true }

/-- `Dxyn` with a drawn row outside memory faults at the first such address, and nothing is drawn (43_display.md R109). -/
def Obligations.DrawBeyondMemoryFaults : Prop :=
  ∀ (x y : Reg) (n : Height) (s : State), rowsDrawn s y n ≠ 0 → 4096 < s.i.toNat + rowsDrawn s y n →
    exec (.drw x y n) s = .next (faulted s .memReadRange (max s.i.toNat 4096))

/-- The pixel-by-pixel row and the row-word form draw the same row with the same collision (43_display.md R109). -/
def Obligations.RowWordFormAgreesWithPixels : Prop :=
  ∀ (sprite : Byte) (xc : Nat) (acc : BitVec 64 × Bool), xc < 64 → drawRow sprite xc acc = drawRowWord sprite xc acc

/-- The same draw twice restores the screen, and the second sets VF exactly when the first turned a pixel ON
(43_display.md R111). The spec states it for x and y not F only and marks it as its own derivation. -/
def Obligations.DrawTwiceRestoresTheScreen : Prop :=
  ∀ (x y : Reg) (n : Height) (s t : State), s.halted = false → x ≠ 15 → y ≠ 15 → exec (.drw x y n) s = .next t →
    t.halted = false →
    ∃ u : State, exec (.drw x y n) t = .next u ∧ u.fb = s.fb ∧
      (u.v[(15 : Reg)] = 1 ↔ ∃ (r : Fin 32) (c : Fin 64), s.pixel r c = false ∧ t.pixel r c = true)

/-- VF after a draw is 1 exactly when some pixel went from ON to OFF (43_display.md R111). -/
def Obligations.CollisionMeansAPixelWentOff : Prop :=
  ∀ (x y : Reg) (n : Height) (s t : State), s.halted = false → exec (.drw x y n) s = .next t → t.halted = false →
    (t.v[(15 : Reg)] = 1 ↔ ∃ (r : Fin 32) (c : Fin 64), s.pixel r c = true ∧ t.pixel r c = false)

/-- `00E0` and `Dxyn` set drawFlag whenever they execute, whether or not a pixel changes; they alone change the screen or the flag;
and no instruction clears it (43_display.md R112). -/
def Obligations.OnlyDisplayTouchesTheScreen : Prop :=
  ∀ (i : Instr) (s t : State), s.halted = false → exec i s = .next t →
    ((i = .cls ∨ ∃ x y n, i = .drw x y n) → t.halted = false → t.drawFlag = true) ∧
    (¬ (i = .cls ∨ ∃ x y n, i = .drw x y n) → t.fb = s.fb ∧ t.drawFlag = s.drawFlag) ∧
    (s.drawFlag = true → t.drawFlag = true)

/-! ### Keys and timers -/

/-- `Ex9E` and `ExA1`: skip on the level of key V[x]; a value above 0x0F faults with KeyRange (44_input_timers.md R113, R114, R121).
The fault is the spec's decision D12. -/
def Obligations.KeySkipsReadTheLevel : Prop :=
  ∀ (x : Reg) (s : State),
    (∀ k : Key, s.v[x].toNat = k.val →
      exec (.skp x) s = .next (executed s (if s.keys[k] = true then s.pc + 4 else s.pc + 2)) ∧
      exec (.sknp x) s = .next (executed s (if s.keys[k] = false then s.pc + 4 else s.pc + 2))) ∧
    (15 < s.v[x].toNat →
      exec (.skp x) s = .next (faulted s .keyRange s.v[x].toNat) ∧
      exec (.sknp x) s = .next (faulted s .keyRange s.v[x].toNat))

/-- `Fx0A`: entry takes the snapshot and repeats; a poll with no release refreshes it and repeats; a poll with releases writes the
lowest released key and goes on (44_input_timers.md R116). The refresh and the lowest key are the spec's decision D11 (log 10). -/
def Obligations.KeyWaitEntersPollsAndResolves : Prop :=
  ∀ (x : Reg) (s : State),
    ((s.waitState = .idle ∨ s.waitAddr ≠ s.pc) → exec (.ldVK x) s =
      .next { s with keysPrev := s.keys, waitState := .waiting, waitAddr := s.pc, lastStatus := .ok }) ∧
    (s.waitState = .waiting → s.waitAddr = s.pc → (∀ k : Key, ¬ released s k) → exec (.ldVK x) s =
      .next { s with keysPrev := s.keys, lastStatus := .ok }) ∧
    (s.waitState = .waiting → s.waitAddr = s.pc → ∀ k : Key, released s k → (∀ j : Key, j < k → ¬ released s j) →
      exec (.ldVK x) s =
        .next { executed s (s.pc + 2) with v := s.v.set x (BitVec.ofNat 8 k.val), keysPrev := s.keys })

/-- While no key changes, any number of STEPs of a wait that has no release pending leaves PC, the registers, the screen and memory
as they are (44_input_timers.md R117). -/
def Obligations.WaitWithoutKeyChangeStays : Prop :=
  ∀ (x : Reg) (s : State), nextIs s (.ldVK x) →
    (s.waitState = .idle ∨ s.waitAddr ≠ s.pc ∨ ∀ k : Key, ¬ released s k) →
    ∀ n : Nat, ∃ t : State, core.run n s = .next t ∧ t.pc = s.pc ∧ t.v = s.v ∧ t.mem = s.mem ∧ t.fb = s.fb ∧ t.halted = false

/-- The wait resolves by a press then a release seen by polls: entry, press, poll, release, poll leave the key's number in V[x] and PC
two past the instruction (44_input_timers.md R116; 95_test_vectors.md S7). The refresh at
each poll is the spec's decision D11 (log 10); `hostRun` is the model's own choice (log 11). -/
def Obligations.PressThenReleaseResolvesTheWait : Prop :=
  ∀ (x : Reg) (k : Key) (s : State), nextIs s (.ldVK x) → s.waitState = .idle → (∀ j : Key, s.keys[j] = false) →
    ∃ t : State, hostRun [.step, .setKey k.val true, .step, .setKey k.val false, .step] s = .ok t ∧
      t.v[x].toNat = k.val ∧ t.pc = s.pc + 2 ∧ t.waitState = .idle ∧ (∀ r : Reg, r ≠ x → t.v[r] = s.v[r])

/-- `Fx07`, `Fx15` and `Fx18` (44_input_timers.md R118 to R120). -/
def Obligations.TimerAccessIsExact : Prop :=
  ∀ (x : Reg) (s : State),
    exec (.ldVDt x) s = .next { executed s (s.pc + 2) with v := s.v.set x s.dt } ∧
    exec (.ldDtV x) s = .next { executed s (s.pc + 2) with dt := s.v[x] } ∧
    exec (.ldStV x) s = .next { executed s (s.pc + 2) with st := s.v[x] }

/-! ### Whole-machine rules -/

/-- A STEP never changes the key vector or the parameters, and a timer only by the instruction that sets it: never by counting
(10_state.md R22, R23, R27; 44_input_timers.md R119). The parameters are the model's own field (log 15). -/
def Obligations.StepsLeaveKeysAndTimersAlone : Prop :=
  ∀ s t : State, step s = .next t →
    t.keys = s.keys ∧ t.params = s.params ∧
    (t.dt ≠ s.dt → ∃ x, nextIs s (.ldDtV x)) ∧ (t.st ≠ s.st → ∃ x, nextIs s (.ldStV x))

/-- Memory changes by `Fx33` and `Fx55` alone (20_memory.md R45). -/
def Obligations.OnlyStoresChangeMemory : Prop :=
  ∀ (i : Instr) (s t : State), exec i s = .next t →
    ((∃ x, i = .ldB x) ∨ ∃ x, i = .storeRegs x) ∨ ∀ a, t.mem.read a = s.mem.read a

/-- The stack and SP change by `2nnn` and `00EE` alone, and only a call writes a slot (10_state.md R20, R21). -/
def Obligations.OnlyCallAndReturnUseTheStack : Prop :=
  ∀ (i : Instr) (s t : State), exec i s = .next t →
    (∃ nnn, i = .call nnn) ∨ (i = .ret ∧ t.stack = s.stack) ∨ (t.sp = s.sp ∧ t.stack = s.stack)

/-- I changes by `Annn`, `Fx1E`, `Fx29`, `Fx55` and `Fx65` alone (10_state.md R18). -/
def Obligations.OnlyIndexInstructionsWriteI : Prop :=
  ∀ (i : Instr) (s t : State), exec i s = .next t → t.i ≠ s.i →
    (∃ nnn, i = .ldI nnn) ∨ (∃ x, i = .addI x) ∨ (∃ x, i = .ldF x) ∨ (∃ x, i = .storeRegs x) ∨ ∃ x, i = .loadRegs x

/-- VF changes as a side effect of `8xy1` to `8xy7`, `8xyE` and `Dxyn`; any other instruction changes it only through x = F
(10_state.md R17). -/
def Obligations.OnlyFlagInstructionsWriteVfAside : Prop :=
  ∀ (i : Instr) (s t : State), exec i s = .next t → t.v[(15 : Reg)] ≠ s.v[(15 : Reg)] →
    (∃ x y, i ∈ [.orReg x y, .andReg x y, .xorReg x y, .addReg x y, .subReg x y, .shrReg x y, .subnReg x y, .shlReg x y]) ∨
    (∃ x y n, i = .drw x y n) ∨
    (∃ kk y, i ∈ [.ldImm 15 kk, .addImm 15 kk, .ldReg 15 y, .rnd 15 kk, .ldVDt 15, .ldVK 15, .loadRegs 15])

/-! ### Host operations -/

/-- TICK: each timer counts down and stops at 0, in every state, and nothing else changes (60_exceptions.md R134).
That it acts while halted is the spec's decision D26. -/
def Obligations.TickCountsDownToZero : Prop :=
  ∀ s : State, ∃ t : State, hostAct .tick s = .ok (t, .done) ∧
    t.dt.toNat = s.dt.toNat - 1 ∧ t.st.toNat = s.st.toNat - 1 ∧ t = { s with dt := t.dt, st := t.st }

/-- LOAD copies the whole program to 0x200 and changes nothing else, or rejects it and changes nothing (70_reset_and_hazards.md R140).
The premise that the parameter keeps a program inside memory holds of every value the spec names for it.
The bound is the spec's decision D17 (log 9). -/
def Obligations.LoadCopiesAllOrNothing : Prop :=
  ∀ (bytes : List Byte) (s : State), s.params.maxProgramLen ≤ 0xDFE →
    (bytes.length ≤ s.params.maxProgramLen → ∃ t : State, hostAct (.load bytes) s = .ok (t, .loadOk) ∧
      (∀ k (h : k < bytes.length), t.mem.read (0x200 + k) = bytes[k]) ∧
      (∀ a, a < 0x200 ∨ 0x200 + bytes.length ≤ a → t.mem.read a = s.mem.read a) ∧ t = { s with mem := t.mem }) ∧
    (s.params.maxProgramLen < bytes.length → hostAct (.load bytes) s = .ok (s, .loadTooLarge))

/-- INIT, from any state, leaves every element of the spec at its reset value, the font region holding the parameter `FONT_TABLE`
(70_reset_and_hazards.md R138); the model's own two fields stay (log 2, log 15). The reset state, whose parameters are the spec's
defaults (log 5), is what INIT makes of itself. INIT at any time is the spec's decision D7. -/
def Obligations.InitGivesTheResetState : Prop :=
  State.reset.init = State.reset ∧
  ∀ s : State, ∃ t : State, hostAct .init s = .ok (t, .done) ∧
    (∀ a, 80 ≤ a → t.mem.read a = 0) ∧ (∀ k : Fin 80, t.mem.read k.val = s.params.fontTable[k]) ∧
    (∀ r : Reg, t.v[r] = 0) ∧ t.i = 0 ∧ t.pc = 0x200 ∧ t.sp = 0 ∧ (∀ j : Fin 16, t.stack[j] = 0) ∧
    t.dt = 0 ∧ t.st = 0 ∧ (∀ (r : Fin 32) (c : Fin 64), t.pixel r c = false) ∧ t.drawFlag = false ∧
    (∀ k : Key, t.keys[k] = false ∧ t.keysPrev[k] = false) ∧ t.waitState = .idle ∧ t.waitAddr = 0 ∧
    t.halted = false ∧ t.faultCode = .none ∧ t.faultInfo = 0 ∧ t.lastStatus = .ok ∧ t.diagWord = 0 ∧
    t.params = s.params ∧ t.freeDraws = s.freeDraws

/-- SET_KEY sets one key and nothing else, and is refused outside 0..15; CLEAR_DRAW_FLAG clears the flag and nothing else; READ_FB and
the six reads answer what they name and change nothing, `soundActive` being ST != 0 (10_state.md R30, R31, R38 to R43). The refusal is
the spec's decision D22, the sound level D29, the latches D7 and D27. -/
def Obligations.HostInputsTouchOneThing : Prop :=
  ∀ s : State,
    (∀ (k : Key) (p : Bool), ∃ t : State, hostAct (.setKey k.val p) s = .ok (t, .done) ∧
      t.keys[k] = p ∧ (∀ j : Key, j ≠ k → t.keys[j] = s.keys[j]) ∧ t = { s with keys := t.keys }) ∧
    (∀ (k : Nat) (p : Bool), 16 ≤ k → hostAct (.setKey k p) s = .error (.keyNumberOutOfRange k)) ∧
    hostAct .clearDrawFlag s = .ok ({ s with drawFlag := false }, .done) ∧
    hostAct .readFb s = .ok (s, .frame s.fb s.drawFlag) ∧
    hostAct .readSoundActive s = .ok (s, .bit (decide (s.st ≠ 0))) ∧
    hostAct .readLastStatus s = .ok (s, .status s.lastStatus) ∧
    hostAct .readDiagWord s = .ok (s, .word s.diagWord) ∧
    hostAct .readHalted s = .ok (s, .bit s.halted) ∧
    hostAct .readFaultCode s = .ok (s, .code s.faultCode) ∧
    hostAct .readFaultInfo s = .ok (s, .info s.faultInfo)

/-! ### Invariants -/

/-- Execution starts at 0x200 with the stack empty, every register 0 and I = 0 (70_reset_and_hazards.md R139). -/
def Obligations.ResetStartsAtProgramBase : Prop :=
  State.reset.pc = 0x200 ∧ State.reset.sp = 0 ∧ (∀ r : Reg, State.reset.v[r] = 0) ∧ State.reset.i = 0

/-- The invariant holds at reset. The canonical form of memory is the model's convention (log 14); the latch clauses are inferred from
the spec's decision D7 (log 1). -/
def Obligations.ResetMeetsTheInvariant : Prop := State.reset.Inv

/-- Every step from a state that meets the invariant gives a state that meets it (10_state.md R36). The wait, the font and the bound on
PC are derivations the spec marks as its own. The latch and the bound on return addresses are the model's inferences from the fault
rule, the latch and the call (60_exceptions.md R125, R126; 10_state.md R30, R31; 40_control_flow.md R80; the spec's decisions D7 and
D6; DEDUCED, log 1 and log 19). The canonical form of memory is the model's convention (log 14). -/
def Obligations.StepKeepsTheInvariant : Prop :=
  ∀ s t : State, s.Inv → step s = .next t → t.Inv

/-- Every sequence of host operations keeps the invariant (10_state.md R36, R39). `hostRun` is the model's own choice (log 11). The wait,
the font and the bound on PC are derivations the spec marks as its own. The latch and the bound on return addresses are the model's
inferences from the fault rule, the latch and the call (60_exceptions.md R125, R126; 10_state.md R30, R31; 40_control_flow.md R80; the
spec's decisions D7 and D6; DEDUCED, log 1 and log 19). The canonical form of memory is the model's convention (log 14). -/
def Obligations.HostRunsKeepTheInvariant : Prop :=
  ∀ (ops : List HostOp) (s t : State), s.Inv → hostRun ops s = .ok t → t.Inv

/-- While the core is not halted every step of a state that meets the invariant answers a next state: it never gets stuck. -/
def Obligations.RunningCoreAlwaysSteps : Prop :=
  ∀ s : State, s.halted = false → ∃ t : State, step s = .next t ∧ (t.halted = true ↔ t.lastStatus = .fault)
end

