-- ==== Sys2Proof/Laws/Decode.lean ====
section
/-! SUPPORT. The fields of a word and the words assembled from fields, as numbers: the lemmas through which decoding and encoding
meet. -/

namespace Sys2Proof

theorem nibble_toFin (k : Fin 16) : (nibble k).toFin = k := rfl
theorem nibble_ofFin (b : BitVec 4) : nibble b.toFin = b := rfl
theorem nibble_toNat (k : Fin 16) : (nibble k).toNat = k.val := rfl

/-- Appending is shifting and adding. -/
theorem toNat_append_add {a b : Nat} (x : BitVec a) (y : BitVec b) : (x ++ y).toNat = x.toNat * 2 ^ b + y.toNat := by
  rw [BitVec.toNat_append, ← Nat.shiftLeft_add_eq_or_of_lt y.isLt, Nat.shiftLeft_eq]

/-! ### Assembled words as numbers (30_encoding.md R63) -/

theorem wordOfNibbles_toNat (c x y n : BitVec 4) :
    (wordOfNibbles c x y n).toNat = ((c.toNat * 16 + x.toNat) * 16 + y.toNat) * 16 + n.toNat := by
  simp only [wordOfNibbles]
  rw [toNat_append_add, toNat_append_add, toNat_append_add]; norm_num

theorem wordOfXKK_toNat (c x : BitVec 4) (kk : Byte) : (wordOfXKK c x kk).toNat = (c.toNat * 16 + x.toNat) * 256 + kk.toNat := by
  simp only [wordOfXKK]
  rw [toNat_append_add, toNat_append_add]; norm_num

theorem wordOfNNN_toNat (c : BitVec 4) (nnn : Addr12) : (wordOfNNN c nnn).toNat = c.toNat * 4096 + nnn.toNat := by
  simp only [wordOfNNN]
  rw [toNat_append_add]; norm_num

theorem wordOfBytes_toNat (hi lo : Byte) : (wordOfBytes hi lo).toNat = hi.toNat * 256 + lo.toNat := by
  simp only [wordOfBytes]
  rw [toNat_append_add]; norm_num

/-! ### Fields as numbers (30_encoding.md R63) -/

theorem opClass_toNat (w : Word) : (opClass w).toNat = w.toNat / 4096 := by
  have := w.isLt
  simp only [opClass, BitVec.extractLsb'_toNat, Nat.shiftRight_eq_div_pow]; omega
theorem nibbleX_toNat (w : Word) : (nibbleX w).toNat = w.toNat / 256 % 16 := by
  simp only [nibbleX, BitVec.extractLsb'_toNat, Nat.shiftRight_eq_div_pow]
theorem nibbleY_toNat (w : Word) : (nibbleY w).toNat = w.toNat / 16 % 16 := by
  simp only [nibbleY, BitVec.extractLsb'_toNat, Nat.shiftRight_eq_div_pow]
theorem nibbleN_toNat (w : Word) : (nibbleN w).toNat = w.toNat % 16 := by
  simp only [nibbleN, BitVec.extractLsb'_toNat, Nat.shiftRight_eq_div_pow]; omega
theorem fieldKK_toNat (w : Word) : (fieldKK w).toNat = w.toNat % 256 := by
  simp only [fieldKK, BitVec.extractLsb'_toNat, Nat.shiftRight_eq_div_pow]; omega
theorem fieldNNN_toNat (w : Word) : (fieldNNN w).toNat = w.toNat % 4096 := by
  simp only [fieldNNN, BitVec.extractLsb'_toNat, Nat.shiftRight_eq_div_pow]; omega
theorem highByte_toNat (w : Word) : (highByte w).toNat = w.toNat / 256 := by
  have := w.isLt
  simp only [highByte, BitVec.extractLsb'_toNat, Nat.shiftRight_eq_div_pow]; omega
theorem lowByte_toNat (w : Word) : (lowByte w).toNat = w.toNat % 256 := by
  simp only [lowByte, BitVec.extractLsb'_toNat, Nat.shiftRight_eq_div_pow]; omega

/-! ### Fields of assembled words -/

@[simp] theorem opClass_wordOfNibbles (c x y n : BitVec 4) : opClass (wordOfNibbles c x y n) = c := by
  apply BitVec.eq_of_toNat_eq
  rw [opClass_toNat, wordOfNibbles_toNat]; have := x.isLt; have := y.isLt; have := n.isLt; omega
@[simp] theorem nibbleX_wordOfNibbles (c x y n : BitVec 4) : nibbleX (wordOfNibbles c x y n) = x := by
  apply BitVec.eq_of_toNat_eq
  rw [nibbleX_toNat, wordOfNibbles_toNat]; have := x.isLt; have := y.isLt; have := n.isLt; omega
@[simp] theorem nibbleY_wordOfNibbles (c x y n : BitVec 4) : nibbleY (wordOfNibbles c x y n) = y := by
  apply BitVec.eq_of_toNat_eq
  rw [nibbleY_toNat, wordOfNibbles_toNat]; have := x.isLt; have := y.isLt; have := n.isLt; omega
@[simp] theorem nibbleN_wordOfNibbles (c x y n : BitVec 4) : nibbleN (wordOfNibbles c x y n) = n := by
  apply BitVec.eq_of_toNat_eq
  rw [nibbleN_toNat, wordOfNibbles_toNat]; have := x.isLt; have := y.isLt; have := n.isLt; omega
@[simp] theorem opClass_wordOfXKK (c x : BitVec 4) (kk : Byte) : opClass (wordOfXKK c x kk) = c := by
  apply BitVec.eq_of_toNat_eq
  rw [opClass_toNat, wordOfXKK_toNat]; have := x.isLt; have := kk.isLt; omega
@[simp] theorem nibbleX_wordOfXKK (c x : BitVec 4) (kk : Byte) : nibbleX (wordOfXKK c x kk) = x := by
  apply BitVec.eq_of_toNat_eq
  rw [nibbleX_toNat, wordOfXKK_toNat]; have := x.isLt; have := kk.isLt; omega
@[simp] theorem fieldKK_wordOfXKK (c x : BitVec 4) (kk : Byte) : fieldKK (wordOfXKK c x kk) = kk := by
  apply BitVec.eq_of_toNat_eq
  rw [fieldKK_toNat, wordOfXKK_toNat]; have := kk.isLt; omega
@[simp] theorem opClass_wordOfNNN (c : BitVec 4) (nnn : Addr12) : opClass (wordOfNNN c nnn) = c := by
  apply BitVec.eq_of_toNat_eq
  rw [opClass_toNat, wordOfNNN_toNat]; have := nnn.isLt; omega
@[simp] theorem fieldNNN_wordOfNNN (c : BitVec 4) (nnn : Addr12) : fieldNNN (wordOfNNN c nnn) = nnn := by
  apply BitVec.eq_of_toNat_eq
  rw [fieldNNN_toNat, wordOfNNN_toNat]; have := nnn.isLt; omega

/-- The bytes of a word, laid out high byte first, are the word (20_memory.md R54). -/
@[simp] theorem wordOfBytes_bytes (w : Word) : wordOfBytes (highByte w) (lowByte w) = w := by
  apply BitVec.eq_of_toNat_eq
  rw [wordOfBytes_toNat, highByte_toNat, lowByte_toNat]; omega
@[simp] theorem highByte_wordOfBytes (hi lo : Byte) : highByte (wordOfBytes hi lo) = hi := by
  apply BitVec.eq_of_toNat_eq
  rw [highByte_toNat, wordOfBytes_toNat]; have := lo.isLt; omega
@[simp] theorem lowByte_wordOfBytes (hi lo : Byte) : lowByte (wordOfBytes hi lo) = lo := by
  apply BitVec.eq_of_toNat_eq
  rw [lowByte_toNat, wordOfBytes_toNat]; have := lo.isLt; omega

/-- A 16-bit table number is its word. -/
@[simp] theorem tableWord_toNat (w : Word) : tableWord 16 w.toNat = w := by
  apply BitVec.eq_of_toNat_eq
  have := w.isLt
  simp only [tableWord, BitVec.toNat_ofNat]; omega

end Sys2Proof
end

