-- ==== Sys2Proof/Laws/Memory.lean ====
section
/-! SUPPORT. Memory: a read after a write, the canonical form kept by every operation, and one lemma per shared access that says
everything it can do. -/

namespace Sys2Proof.Machine

/-! ### Cells -/

theorem Memory.read_cell_ne (b : Nat) (u : Byte) (m : Memory) (a : Nat) (h : a ≠ b) :
    Memory.read ((b, u) :: m) a = Memory.read m a := if_neg h

theorem Memory.read_cell_eq (b : Nat) (u : Byte) (m : Memory) : Memory.read ((b, u) :: m) b = u := if_pos rfl

theorem Memory.read_erase_same : ∀ (m : Memory) (a : Nat), (m.erase a).read a = unlistedByte a
  | [], _ => rfl
  | (b, u) :: rest, a => by
    unfold Memory.erase; split
    · exact Memory.read_erase_same rest a
    · next h => rw [Memory.read_cell_ne b u _ a h, Memory.read_erase_same rest a]

theorem Memory.read_erase_other : ∀ (m : Memory) (a c : Nat), c ≠ a → (m.erase a).read c = m.read c
  | [], _, _, _ => rfl
  | (b, u) :: rest, a, c, h => by
    unfold Memory.erase; split
    · next e => rw [Memory.read_erase_other rest a c h, Memory.read_cell_ne b u rest c (e ▸ h)]
    · by_cases hc : c = b
      · subst hc; rw [Memory.read_cell_eq, Memory.read_cell_eq]
      · rw [Memory.read_cell_ne b u _ c hc, Memory.read_cell_ne b u rest c hc, Memory.read_erase_other rest a c h]

theorem Memory.read_insertCell_other : ∀ (m : Memory) (a c : Nat) (v : Byte), c ≠ a → (m.insertCell a v).read c = m.read c
  | [], a, c, v, h => Memory.read_cell_ne a v [] c h
  | (b, u) :: rest, a, c, v, h => by
    unfold Memory.insertCell; split
    · exact Memory.read_cell_ne a v _ c h
    · by_cases hc : c = b
      · subst hc; rw [Memory.read_cell_eq, Memory.read_cell_eq]
      · rw [Memory.read_cell_ne b u _ c hc, Memory.read_cell_ne b u rest c hc, Memory.read_insertCell_other rest a c v h]

theorem Memory.read_insertCell_erase : ∀ (m : Memory) (a : Nat) (v : Byte), ((m.erase a).insertCell a v).read a = v
  | [], a, v => Memory.read_cell_eq a v []
  | (b, u) :: rest, a, v => by
    unfold Memory.erase; split
    · exact Memory.read_insertCell_erase rest a v
    · next h =>
      unfold Memory.insertCell; split
      · exact Memory.read_cell_eq a v _
      · rw [Memory.read_cell_ne b u _ a h, Memory.read_insertCell_erase rest a v]

/-! ### Read after write, on any memory -/

@[simp] theorem Memory.read_set_same (m : Memory) (a : Nat) (v : Byte) : (m.set a v).read a = v := by
  unfold Memory.set; split
  · next e => rw [Memory.read_erase_same, e]
  · exact Memory.read_insertCell_erase m a v

theorem Memory.read_set_other (m : Memory) (a c : Nat) (v : Byte) (h : c ≠ a) : (m.set a v).read c = m.read c := by
  unfold Memory.set; split
  · exact Memory.read_erase_other m a c h
  · rw [Memory.read_insertCell_other _ a c v h, Memory.read_erase_other m a c h]

/-! ### The canonical form -/

theorem Memory.wfFrom_cons (lo b : Nat) (u : Byte) (m : Memory) :
    Memory.wfFrom lo ((b, u) :: m) = true ↔
      (lo ≤ b ∧ b < Config.memSize) ∧ u ≠ unlistedByte b ∧ Memory.wfFrom (b + 1) m = true := by
  simp [Memory.wfFrom, and_assoc]

theorem Memory.wfFrom_mono : ∀ (m : Memory) (lo lo' : Nat), lo' ≤ lo → Memory.wfFrom lo m = true → Memory.wfFrom lo' m = true
  | [], _, _, _, _ => rfl
  | (b, u) :: rest, lo, lo', hle, h => by
    rw [Memory.wfFrom_cons] at h ⊢
    exact ⟨⟨by omega, h.1.2⟩, h.2⟩

theorem Memory.wfFrom_erase : ∀ (m : Memory) (lo a : Nat), Memory.wfFrom lo m = true → Memory.wfFrom lo (m.erase a) = true
  | [], _, _, _ => rfl
  | (b, u) :: rest, lo, a, h => by
    rw [Memory.wfFrom_cons] at h
    unfold Memory.erase; split
    · exact Memory.wfFrom_mono _ (b + 1) lo (by omega) (Memory.wfFrom_erase rest (b + 1) a h.2.2)
    · exact (Memory.wfFrom_cons ..).2 ⟨h.1, h.2.1, Memory.wfFrom_erase rest (b + 1) a h.2.2⟩

theorem Memory.wfFrom_insertCell_erase : ∀ (m : Memory) (lo a : Nat) (v : Byte), Memory.wfFrom lo m = true → lo ≤ a →
    a < Config.memSize → v ≠ unlistedByte a → Memory.wfFrom lo ((m.erase a).insertCell a v) = true
  | [], lo, a, v, _, hlo, ha, hv => (Memory.wfFrom_cons ..).2 ⟨⟨hlo, ha⟩, hv, rfl⟩
  | (b, u) :: rest, lo, a, v, h, hlo, ha, hv => by
    rw [Memory.wfFrom_cons] at h
    unfold Memory.erase; split
    · exact Memory.wfFrom_insertCell_erase rest lo a v (Memory.wfFrom_mono rest (b + 1) lo (by omega) h.2.2) hlo ha hv
    · next hab =>
      unfold Memory.insertCell; split
      · next hlt =>
        refine (Memory.wfFrom_cons ..).2 ⟨⟨hlo, ha⟩, hv, (Memory.wfFrom_cons ..).2 ⟨⟨hlt, h.1.2⟩, h.2.1, ?_⟩⟩
        exact Memory.wfFrom_erase rest (b + 1) a h.2.2
      · next hlt =>
        exact (Memory.wfFrom_cons ..).2 ⟨h.1, h.2.1,
          Memory.wfFrom_insertCell_erase rest (b + 1) a v h.2.2 (by omega) ha hv⟩

/-- A write inside memory keeps the canonical form. -/
theorem Memory.wf_set (m : Memory) (a : Nat) (v : Byte) (h : m.wf = true) (ha : a < Config.memSize) : (m.set a v).wf = true := by
  unfold Memory.set; split
  · exact Memory.wfFrom_erase m 0 a h
  · next hv => exact Memory.wfFrom_insertCell_erase m 0 a v h (Nat.zero_le a) ha hv

/-- The memory after reset is in canonical form. -/
theorem reset_mem_wf : State.reset.mem.wf = true := rfl

/-- Below its first cell a canonical memory reads as unlisted. -/
theorem Memory.read_below : ∀ (m : Memory) (lo a : Nat), Memory.wfFrom lo m = true → a < lo → m.read a = unlistedByte a
  | [], _, _, _, _ => rfl
  | (b, u) :: rest, lo, a, h, hlt => by
    rw [Memory.wfFrom_cons] at h
    rw [Memory.read_cell_ne b u rest a (by omega)]
    exact Memory.read_below rest (b + 1) a h.2.2 (by omega)

/-! ### The shared accesses -/

/-- Everything `memRead` can do (20_memory.md R51). -/
theorem memRead_in (m : Memory) (a : Nat) (h : a < 4096) : memRead m a = .ok (m.read a) := if_neg (Nat.not_le.mpr h)

theorem memRead_out (m : Memory) (a : Nat) (h : 4096 ≤ a) : memRead m a = .error (raiseFault .memReadRange a) := if_pos h

/-- Everything `memWrite` can do (20_memory.md R52): a successful write. -/
theorem memWrite_ok (p : Config.Params) (m : Memory) (a : Nat) (b : Byte) (h : a < 4096)
    (hf : 80 ≤ a ∨ p.fontWritePolicy = .allow) : memWrite p m a b = .ok (m.set a b) := by
  have h1 : ¬ Config.memSize ≤ a := Nat.not_le.mpr h
  have h2 : ¬ (a < Config.fontSize ∧ p.fontWritePolicy = .fault) := by
    rintro ⟨hlt, hp⟩
    rcases hf with hf | hf
    · exact absurd hlt (Nat.not_lt.mpr hf)
    · rw [hp] at hf; cases hf
  rw [memWrite, if_neg h1, if_neg h2]

theorem memWrite_range (p : Config.Params) (m : Memory) (a : Nat) (b : Byte) (h : 4096 ≤ a) :
    memWrite p m a b = .error (raiseFault .memWriteRange a) := if_pos h

theorem memWrite_font (p : Config.Params) (m : Memory) (a : Nat) (b : Byte) (h : a < 80) (hp : p.fontWritePolicy = .fault) :
    memWrite p m a b = .error (raiseFault .fontWrite a) := by
  have h1 : ¬ Config.memSize ≤ a := Nat.not_le.mpr (Nat.lt_trans h (by decide))
  rw [memWrite, if_neg h1, if_pos ⟨h, hp⟩]

/-- A write that succeeds is the plain write of one byte in memory, outside a protected font region. -/
theorem memWrite_inv (p : Config.Params) (m m' : Memory) (a : Nat) (b : Byte) (h : memWrite p m a b = .ok m') :
    m' = m.set a b ∧ a < 4096 ∧ (80 ≤ a ∨ p.fontWritePolicy = .allow) := by
  by_cases h1 : 4096 ≤ a
  · rw [memWrite_range p m a b h1] at h; cases h
  · by_cases h2 : 80 ≤ a ∨ p.fontWritePolicy = .allow
    · rw [memWrite_ok p m a b (by omega) h2] at h
      cases h; exact ⟨rfl, by omega, h2⟩
    · rw [not_or] at h2
      have hp : p.fontWritePolicy = .fault := by
        cases hq : p.fontWritePolicy
        · rfl
        · exact absurd hq h2.2
      rw [memWrite_font p m a b (by omega) hp] at h; cases h

/-- Everything a block write that succeeds does: each byte lands at its address, every other address keeps its byte, the canonical
form is kept, and every address was writable. -/
theorem memWriteBlock_inv (p : Config.Params) : ∀ (bs : List Byte) (m m' : Memory) (a : Nat), memWriteBlock p m a bs = .ok m' →
    (∀ k (h : k < bs.length), m'.read (a + k) = bs[k]) ∧
    (∀ c, c < a ∨ a + bs.length ≤ c → m'.read c = m.read c) ∧
    (m.wf = true → m'.wf = true) ∧
    (∀ k, k < bs.length → a + k < 4096 ∧ (80 ≤ a + k ∨ p.fontWritePolicy = .allow))
  | [], m, m', a, h => by
    cases h
    exact ⟨fun k h => absurd h (Nat.not_lt_zero k), fun _ _ => rfl, id, fun k h => absurd h (Nat.not_lt_zero k)⟩
  | b :: rest, m, m', a, h => by
    unfold memWriteBlock at h
    split at h
    · cases h
    · next m1 h1 =>
      obtain ⟨e, ha, hf⟩ := memWrite_inv p m m1 a b h1
      obtain ⟨hr, ho, hw, hs⟩ := memWriteBlock_inv p rest m1 m' (a + 1) h
      refine ⟨?_, ?_, ?_, ?_⟩
      · intro k hk
        cases k with
        | zero => rw [Nat.add_zero, ho a (by omega), e]; exact Memory.read_set_same m a b
        | succ k => rw [show a + (k + 1) = a + 1 + k by omega]; exact hr k (Nat.lt_of_succ_lt_succ hk)
      · intro c hc
        rw [List.length_cons] at hc
        rw [ho c (by omega), e, Memory.read_set_other m a c b (by omega)]
      · intro h0; exact hw (e ▸ Memory.wf_set m a b h0 ha)
      · intro k hk
        cases k with
        | zero => exact ⟨ha, hf⟩
        | succ k => rw [show a + (k + 1) = a + 1 + k by omega]; exact hs k (Nat.lt_of_succ_lt_succ hk)

/-- A block write succeeds when every address is writable. -/
theorem memWriteBlock_ok (p : Config.Params) : ∀ (bs : List Byte) (m : Memory) (a : Nat),
    (∀ k, k < bs.length → a + k < 4096 ∧ (80 ≤ a + k ∨ p.fontWritePolicy = .allow)) → ∃ m', memWriteBlock p m a bs = .ok m'
  | [], m, _, _ => ⟨m, rfl⟩
  | b :: rest, m, a, h => by
    have h0 := h 0 (Nat.succ_pos _)
    obtain ⟨m', hm⟩ := memWriteBlock_ok p rest (m.set a b) (a + 1) fun k hk => by
      rw [show a + 1 + k = a + (k + 1) by omega]; exact h (k + 1) (Nat.succ_lt_succ hk)
    exact ⟨m', by rw [memWriteBlock, memWrite_ok p m a b h0.1 h0.2]; exact hm⟩

/-- A block write faults at its first address that is not writable (60_exceptions.md R127). -/
theorem memWriteBlock_fault (p : Config.Params) : ∀ (bs : List Byte) (m : Memory) (a k : Nat), k < bs.length →
    (∀ j, j < k → a + j < 4096 ∧ (80 ≤ a + j ∨ p.fontWritePolicy = .allow)) →
    ¬ (a + k < 4096 ∧ (80 ≤ a + k ∨ p.fontWritePolicy = .allow)) →
    memWriteBlock p m a bs = .error (raiseFault (if 4096 ≤ a + k then .memWriteRange else .fontWrite) (a + k))
  | [], _, _, k, hk, _, _ => absurd hk (Nat.not_lt_zero k)
  | b :: rest, m, a, 0, _, _, hn => by
    rw [Nat.add_zero] at hn ⊢
    by_cases h1 : 4096 ≤ a
    · rw [memWriteBlock, memWrite_range p m a b h1, if_pos h1]
    · have h2 : ¬ (80 ≤ a ∨ p.fontWritePolicy = .allow) := fun h => hn ⟨by omega, h⟩
      rw [not_or] at h2
      have hp : p.fontWritePolicy = .fault := by
        cases hq : p.fontWritePolicy
        · rfl
        · exact absurd hq h2.2
      rw [memWriteBlock, memWrite_font p m a b (by omega) hp, if_neg h1]
  | b :: rest, m, a, k + 1, hk, hj, hn => by
    have h0 := hj 0 (Nat.succ_pos k)
    have e : a + (k + 1) = a + 1 + k := by omega
    rw [memWriteBlock, memWrite_ok p m a b h0.1 h0.2, e]
    refine memWriteBlock_fault p rest (m.set a b) (a + 1) k (Nat.lt_of_succ_lt_succ hk) ?_ (e ▸ hn)
    intro j hjk
    rw [show a + 1 + j = a + (j + 1) by omega]; exact hj (j + 1) (Nat.succ_lt_succ hjk)

/-- A block read inside memory: the bytes in order. -/
theorem memReadBlock_ok (m : Memory) : ∀ (n a : Nat), a + n ≤ 4096 →
    memReadBlock m a n = .ok ((List.range n).map fun k => m.read (a + k))
  | 0, _, _ => rfl
  | n + 1, a, h => by
    rw [memReadBlock, memRead_in m a (by omega), memReadBlock_ok m n (a + 1) (by omega), List.range_succ_eq_map]
    simp [Function.comp_def, Nat.add_assoc, Nat.add_comm 1]

/-- A block read that leaves memory faults at its first address outside. -/
theorem memReadBlock_fault (m : Memory) : ∀ (n a : Nat), 0 < n → 4096 < a + n →
    memReadBlock m a n = .error (raiseFault .memReadRange (max a 4096))
  | 0, _, h, _ => absurd h (Nat.lt_irrefl 0)
  | n + 1, a, _, h => by
    by_cases h1 : 4096 ≤ a
    · rw [memReadBlock, memRead_out m a h1, Nat.max_eq_left h1]
    · rw [memReadBlock, memRead_in m a (by omega), memReadBlock_fault m n (a + 1) (by omega) (by omega)]
      rw [Nat.max_eq_right (by omega : a + 1 ≤ 4096), Nat.max_eq_right (by omega : a ≤ 4096)]

/-! ### The host's copy -/

theorem Memory.wf_poke (m : Memory) (a : Nat) (v : Byte) (h : m.wf = true) : (m.poke a v).wf = true := by
  unfold Memory.poke; split
  · next ha => exact Memory.wf_set m a v h ha
  · exact h

theorem Memory.read_poke_other (m : Memory) (a c : Nat) (v : Byte) (h : c ≠ a) : (m.poke a v).read c = m.read c := by
  unfold Memory.poke; split
  · exact Memory.read_set_other m a c v h
  · rfl

theorem Memory.read_poke_same (m : Memory) (a : Nat) (v : Byte) (h : a < 4096) : (m.poke a v).read a = v := by
  rw [Memory.poke, if_pos (show a < Config.memSize from h)]; exact Memory.read_set_same m a v

/-- Everything the host's copy of a block does. -/
theorem Memory.pokeBlock_spec : ∀ (bs : List Byte) (m : Memory) (a : Nat),
    (a + bs.length ≤ 4096 → ∀ k (h : k < bs.length), (m.pokeBlock a bs).read (a + k) = bs[k]) ∧
    (∀ c, c < a ∨ a + bs.length ≤ c → (m.pokeBlock a bs).read c = m.read c) ∧
    (m.wf = true → (m.pokeBlock a bs).wf = true)
  | [], m, a => ⟨fun _ k h => absurd h (Nat.not_lt_zero k), fun _ _ => rfl, id⟩
  | b :: rest, m, a => by
    obtain ⟨hr, ho, hw⟩ := Memory.pokeBlock_spec rest (m.poke a b) (a + 1)
    refine ⟨?_, ?_, ?_⟩
    · intro hlen k hk
      rw [List.length_cons] at hlen
      cases k with
      | zero =>
        rw [Nat.add_zero, Memory.pokeBlock, ho a (by omega)]; exact Memory.read_poke_same m a b (by omega)
      | succ k =>
        rw [show a + (k + 1) = a + 1 + k by omega]; exact hr (by omega) k (Nat.lt_of_succ_lt_succ hk)
    · intro c hc
      rw [List.length_cons] at hc
      rw [Memory.pokeBlock, ho c (by omega), Memory.read_poke_other m a c b (by omega)]
    · intro h0; exact hw (Memory.wf_poke m a b h0)

/-! ### Memory after INIT -/

/-- Past the font region an unlisted address reads as 0. -/
theorem unlistedByte_past (a : Nat) (h : 80 ≤ a) : unlistedByte a = 0 := by
  have hl : defaultFontBytes.length ≤ a := h
  simp [unlistedByte, List.getD, List.getElem?_eq_none hl]

/-- In the font region an unlisted address reads as the default table. -/
theorem unlistedByte_font (k : Fin 80) : unlistedByte k.val = defaultFontTable[k] := by
  revert k; decide

/-- Everything about the memory INIT leaves: the parameter's table in the font region, 0 past it, and the canonical form
(70_reset_and_hazards.md R138, 20_memory.md R49). -/
theorem initialMemory_spec (p : Config.Params) :
    (∀ k : Fin 80, (initialMemory p).read k.val = p.fontTable[k]) ∧ (∀ a, 80 ≤ a → (initialMemory p).read a = 0) ∧
    (initialMemory p).wf = true := by
  have hl : p.fontTable.toList.length = 80 := p.fontTable.length_toList
  obtain ⟨hr, ho, hw⟩ := Memory.pokeBlock_spec p.fontTable.toList [] 0
  refine ⟨fun k => ?_, fun a ha => ?_, hw rfl⟩
  · have := hr (by omega) k.val (by omega)
    rw [Nat.zero_add] at this
    exact this.trans (by simp)
  · exact (ho a (.inr (by omega))).trans (unlistedByte_past a ha)

/-- A host's copy of what the addresses read as unlisted lists nothing. -/
theorem Memory.pokeBlock_unlisted : ∀ (bs : List Byte) (a : Nat), (∀ k (h : k < bs.length), bs[k] = unlistedByte (a + k)) →
    Memory.pokeBlock [] a bs = []
  | [], _, _ => rfl
  | b :: rest, a, h => by
    have h0 : b = unlistedByte a := h 0 (Nat.succ_pos _)
    have hp : Memory.poke [] a b = [] := by
      unfold Memory.poke; split
      · rw [Memory.set, if_pos h0]; rfl
      · rfl
    rw [Memory.pokeBlock, hp]
    refine Memory.pokeBlock_unlisted rest (a + 1) fun k hk => ?_
    rw [show a + 1 + k = a + (k + 1) by omega]; exact h (k + 1) (Nat.succ_lt_succ hk)

/-- Under the default table INIT lists no address. -/
theorem initialMemory_default : initialMemory defaultParams = [] := by
  refine Memory.pokeBlock_unlisted _ 0 fun k hk => ?_
  have hk80 : k < 80 := by rwa [Vector.length_toList] at hk
  rw [Nat.zero_add, unlistedByte_font ⟨k, hk80⟩]
  exact Vector.getElem_toList _

/-- INIT of the reset state is the reset state. -/
theorem State.init_reset : State.reset.init = State.reset := by
  rw [State.init, show State.reset.params = defaultParams from rfl, initialMemory_default]; rfl

end Sys2Proof.Machine
end

