-- ==== Sys2Proof/Laws/Display.lean ====
section
/-! SUPPORT. The XOR compositor: what a column, a row and a whole sprite do to the pixels and the collision, when a draw succeeds and
where it faults, and the pixels of the row-word form. -/

namespace Sys2Proof.Machine

/-! ### One row -/

/-- The pixel of a row after one pixel of it was inverted (43_display.md R109). -/
theorem rowPixel_flipPixel (row : BitVec 64) (c d : Nat) (hc : c < 64) (hd : d < 64) :
    rowPixel (flipPixel row c) d = (rowPixel row d ^^ decide (c = d)) := by
  rw [rowPixel, flipPixel, BitVec.getLsbD_xor, rowPixel]
  congr 1
  simp only [BitVec.getLsbD_shiftLeft, BitVec.getLsbD_one]
  by_cases h : c = d
  · subst h; simp; omega
  · simp [h]; omega

/-- The sprite byte at column `xc` has a 1 bit over column `d`, among its first `n` columns (43_display.md R110). -/
def rowCovers (sprite : Byte) (xc n d : Nat) : Bool := decide (xc ≤ d) && decide (d < xc + n) && sprite.getLsbD (7 - (d - xc))

theorem rowCovers_succ (sprite : Byte) (xc n d : Nat) :
    rowCovers sprite xc (n + 1) d = (rowCovers sprite xc n d || (decide (xc + n = d) && spriteBit sprite n)) := by
  rcases Nat.lt_trichotomy d (xc + n) with h | h | h
  · have h1 : ¬ (xc + n = d) := by omega
    have h2 : d < xc + (n + 1) := by omega
    simp [rowCovers, h, h1, h2]
  · subst h
    simp [rowCovers, spriteBit]
  · have h1 : ¬ (xc + n = d) := by omega
    have h2 : ¬ d < xc + (n + 1) := by omega
    have h3 : ¬ d < xc + n := by omega
    simp [rowCovers, h1, h2, h3]

/-- Everything the first `n` columns of a sprite row do: they invert the pixels they cover, and the collision is set exactly when one
of these was on (43_display.md R109). -/
theorem drawColumns_spec (sprite : Byte) (xc : Nat) (row : BitVec 64) (hit : Bool) : ∀ n : Nat,
    (∀ d, d < 64 → rowPixel ((List.range n).foldl (drawColumn sprite xc) (row, hit)).1 d
        = (rowPixel row d ^^ rowCovers sprite xc n d)) ∧
    (((List.range n).foldl (drawColumn sprite xc) (row, hit)).2 = true ↔
        hit = true ∨ ∃ d, d < 64 ∧ rowCovers sprite xc n d = true ∧ rowPixel row d = true)
  | 0 => by
    have e : ∀ d, rowCovers sprite xc 0 d = false := by
      intro d; by_cases h : xc ≤ d <;> simp [rowCovers, h]
    simp [e]
  | n + 1 => by
    obtain ⟨hp, hc⟩ := drawColumns_spec sprite xc row hit n
    rw [List.range_succ, List.foldl_append, List.foldl_cons, List.foldl_nil]
    generalize (List.range n).foldl (drawColumn sprite xc) (row, hit) = acc at hp hc
    simp only [rowCovers_succ]
    unfold drawColumn
    split
    · next h =>
      have e : ∀ d, d < 64 → ¬ xc + n = d := fun d hd => by omega
      refine ⟨fun d hd => by rw [hp d hd]; simp [e d hd], hc.trans (or_congr_right (exists_congr fun d => ?_))⟩
      exact and_congr_right fun hd => by simp [e d hd]
    · next h =>
      split
      · next hb =>
        have hn : rowCovers sprite xc n (xc + n) = false := by simp [rowCovers]
        refine ⟨fun d hd => ?_, ?_⟩
        · rw [rowPixel_flipPixel _ _ _ (by omega) hd, hp d hd, hb]
          by_cases hd' : xc + n = d
          · subst hd'; simp [hn]
          · simp [hd']
        · rw [Bool.or_eq_true, hc, hp _ (by omega), hn, hb, Bool.xor_false, or_assoc]
          refine or_congr_right ⟨?_, ?_⟩
          · rintro (⟨d, h1, h2, h3⟩ | h1)
            · exact ⟨d, h1, by simp [h2], h3⟩
            · exact ⟨xc + n, by omega, by simp, h1⟩
          · rintro ⟨d, h1, h2, h3⟩
            rcases Bool.or_eq_true _ _ ▸ h2 with h2 | h2
            · exact .inl ⟨d, h1, h2, h3⟩
            · have : xc + n = d := by simpa using h2
              exact .inr (this ▸ h3)
      · next hb => simp only [hb, Bool.and_false, Bool.or_false]; exact ⟨hp, hc⟩

/-- Everything one sprite row does. -/
theorem drawRow_spec (sprite : Byte) (xc : Nat) (acc : BitVec 64 × Bool) :
    (∀ d, d < 64 → rowPixel (drawRow sprite xc acc).1 d = (rowPixel acc.1 d ^^ rowCovers sprite xc 8 d)) ∧
    ((drawRow sprite xc acc).2 = true ↔
      acc.2 = true ∨ ∃ d, d < 64 ∧ rowCovers sprite xc 8 d = true ∧ rowPixel acc.1 d = true) :=
  drawColumns_spec sprite xc acc.1 acc.2 8

/-! ### The whole sprite -/

/-- Pixel (r, d) of a framebuffer given by number. -/
def framePixel (fb : FrameBuffer) (r : Fin 32) (d : Nat) : Bool := rowPixel fb[r] d

/-- Row `r` is among `k` sprite rows from row `row` on, and its sprite byte covers column `d`. -/
def rowsCover (m : Memory) (base xc yc k row : Nat) (r : Fin 32) (d : Nat) : Bool :=
  decide (yc + row ≤ r.val) && decide (r.val < yc + row + k) && rowCovers (m.read (base + (r.val - yc))) xc 8 d

/-- Everything a draw that succeeds does: the covered pixels are inverted, and the collision is set exactly when one of them was on
(43_display.md R109). -/
theorem drawRows_spec (m : Memory) (base xc yc : Nat) : ∀ (k row : Nat) (fb : FrameBuffer) (hit : Bool)
    (out : FrameBuffer × Bool), drawRows m base xc yc k row (fb, hit) = .ok out →
    (∀ (r : Fin 32) (d : Nat), d < 64 →
      framePixel out.1 r d = (framePixel fb r d ^^ rowsCover m base xc yc k row r d)) ∧
    (out.2 = true ↔ hit = true ∨ ∃ (r : Fin 32) (d : Nat), d < 64 ∧ rowsCover m base xc yc k row r d = true ∧
      framePixel fb r d = true)
  | 0, row, fb, hit, out, h => by
    cases h
    have e : ∀ (r : Fin 32) (d : Nat), rowsCover m base xc yc 0 row r d = false := by
      intro r d; by_cases h : yc + row ≤ r.val <;> simp [rowsCover, h]
    simp [e]
  | k + 1, row, fb, hit, out, h => by
    unfold drawRows at h
    split at h
    · next hy =>
      split at h
      · cases h
      · next sprite hs =>
        have hsp : m.read (base + row) = sprite := by
          by_cases hb : base + row < 4096
          · rw [memRead_in m _ hb] at hs; cases hs; rfl
          · rw [memRead_out m _ (by omega)] at hs; cases hs
        obtain ⟨hp, hc⟩ := drawRows_spec m base xc yc k (row + 1) _ _ out h
        obtain ⟨rp, rc⟩ := drawRow_spec sprite xc (fb[yc + row], hit)
        dsimp only at rp rc
        generalize drawRow sprite xc (fb[yc + row], hit) = d' at hp hc rp rc
        have here : ∀ d, rowsCover m base xc yc (k + 1) row ⟨yc + row, hy⟩ d = rowCovers sprite xc 8 d := by
          intro d; simp [rowsCover, hsp]
        have there : ∀ (r : Fin 32) d, r.val ≠ yc + row →
            rowsCover m base xc yc (k + 1) row r d = rowsCover m base xc yc k (row + 1) r d := by
          intro r d hr
          have e1 : decide (yc + row ≤ r.val) = decide (yc + (row + 1) ≤ r.val) := by apply decide_eq_decide.2; omega
          have e2 : decide (r.val < yc + row + (k + 1)) = decide (r.val < yc + (row + 1) + k) := by
            apply decide_eq_decide.2; omega
          rw [rowsCover, rowsCover, e1, e2]
        have gone : ∀ d, rowsCover m base xc yc k (row + 1) ⟨yc + row, hy⟩ d = false := by
          intro d; simp [rowsCover]
        have fpHere : ∀ d, framePixel (fb.set (yc + row) d'.1) ⟨yc + row, hy⟩ d = rowPixel d'.1 d := by
          intro d; simp [framePixel]
        have fpThere : ∀ (r : Fin 32) d, r.val ≠ yc + row → framePixel (fb.set (yc + row) d'.1) r d = framePixel fb r d := by
          intro r d hr; simp [framePixel, Ne.symm hr]
        refine ⟨fun r d hd => ?_, ?_⟩
        · rw [hp r d hd]
          by_cases hr : r.val = yc + row
          · have : r = ⟨yc + row, hy⟩ := Fin.ext hr
            subst this
            rw [gone, here, fpHere, rp d hd, Bool.xor_false]; rfl
          · rw [fpThere r d hr, there r d hr]
        · rw [hc, rc, or_assoc]
          refine or_congr_right ⟨?_, ?_⟩
          · rintro (⟨d, h1, h2, h3⟩ | ⟨r, d, h1, h2, h3⟩)
            · exact ⟨⟨yc + row, hy⟩, d, h1, by rw [here]; exact h2, h3⟩
            · have hr : r.val ≠ yc + row := by
                intro e; have : r = ⟨yc + row, hy⟩ := Fin.ext e
                subst this; rw [gone] at h2; cases h2
              exact ⟨r, d, h1, by rw [there r d hr]; exact h2, by rw [← fpThere r d hr]; exact h3⟩
          · rintro ⟨r, d, h1, h2, h3⟩
            by_cases hr : r.val = yc + row
            · have : r = ⟨yc + row, hy⟩ := Fin.ext hr
              subst this
              rw [here] at h2
              exact .inl ⟨d, h1, h2, h3⟩
            · exact .inr ⟨r, d, h1, by rw [← there r d hr]; exact h2, by rw [fpThere r d hr]; exact h3⟩
    · next hy =>
      cases h
      have e : ∀ (r : Fin 32) (d : Nat), rowsCover m base xc yc (k + 1) row r d = false := by
        intro r d; have := r.isLt
        have h : ¬ (yc + row ≤ r.val) := by omega
        simp [rowsCover, h]
      simp [e]

/-- A draw succeeds when every row it reads lies in memory; a row past the bottom is not read (43_display.md R109). -/
theorem drawRows_ok (m : Memory) (base xc yc : Nat) : ∀ (k row : Nat) (acc : FrameBuffer × Bool),
    (∀ j, row ≤ j → j < row + k → yc + j < 32 → base + j < 4096) → ∃ out, drawRows m base xc yc k row acc = .ok out
  | 0, _, acc, _ => ⟨acc, rfl⟩
  | k + 1, row, acc, h => by
    unfold drawRows
    split
    · next hy =>
      rw [memRead_in m (base + row) (h row (Nat.le_refl _) (by omega) hy)]
      exact drawRows_ok m base xc yc k (row + 1) _ fun j h1 h2 h3 => h j (by omega) (by omega) h3
    · exact ⟨acc, rfl⟩

/-- A draw faults at the first row it reads outside memory (60_exceptions.md R127). -/
theorem drawRows_fault (m : Memory) (base xc yc : Nat) : ∀ (k row : Nat) (acc : FrameBuffer × Bool) (j : Nat),
    row ≤ j → j < row + k → yc + j < 32 → 4096 ≤ base + j →
    drawRows m base xc yc k row acc = .error (raiseFault .memReadRange (max (base + row) 4096))
  | 0, row, acc, j, h1, h2, _, _ => by omega
  | k + 1, row, acc, j, h1, h2, h3, h4 => by
    unfold drawRows
    rw [dif_pos (by omega)]
    by_cases hb : base + row < 4096
    · rw [memRead_in m _ hb]
      refine (drawRows_fault m base xc yc k (row + 1) _ j (by omega) (by omega) h3 h4).trans ?_
      rw [Nat.max_eq_right (by omega : base + (row + 1) ≤ 4096), Nat.max_eq_right (by omega : base + row ≤ 4096)]
    · rw [memRead_out m _ (by omega), Nat.max_eq_left (by omega)]

/-! ### The row-word form -/

/-- The pixels the row word of a sprite byte has set (43_display.md R109). -/
theorem rowPixel_spriteMask (sprite : Byte) (xc d : Nat) (hd : d < 64) :
    rowPixel (spriteMask sprite xc) d = rowCovers sprite xc 8 d := by
  rw [rowPixel, spriteMask, BitVec.getLsbD_ushiftRight, BitVec.getLsbD_shiftLeft, BitVec.getLsbD_setWidth]
  rw [rowCovers]
  by_cases h1 : xc ≤ d
  · by_cases h2 : d < xc + 8
    · have a : xc + (63 - d) < 64 := by omega
      have b : ¬ xc + (63 - d) < 56 := by omega
      have c : xc + (63 - d) - 56 = 7 - (d - xc) := by omega
      have e : 7 - (d - xc) < 64 := by omega
      simp [h1, h2, a, b, c, e]
    · have b : xc + (63 - d) < 56 := by omega
      simp [h2, b]
  · have a : ¬ xc + (63 - d) < 64 := by omega
    simp [h1, a]

/-- Row words are equal when their 64 pixels are. -/
theorem row_ext (a b : BitVec 64) (h : ∀ d, d < 64 → rowPixel a d = rowPixel b d) : a = b := by
  apply BitVec.eq_of_getLsbD_eq
  intro i hi
  have := h (63 - i) (by omega)
  rw [rowPixel, rowPixel, show 63 - (63 - i) = i by omega] at this
  exact this

end Sys2Proof.Machine
end

