-- ==== Sys2Proof/Laws/State.lean ====
section
/-! SUPPORT. What each update of the state leaves in each field: one lemma per field, true by rfl, so that no proof unfolds a record
update. -/

namespace Sys2Proof.Machine

/-! `writeV` changes the register file only. -/

@[simp] theorem State.writeV_mem (s : State) (r : Reg) (b : Byte) : (s.writeV r b).mem = s.mem := rfl
@[simp] theorem State.writeV_v (s : State) (r : Reg) (b : Byte) : (s.writeV r b).v = s.v.set r b := rfl
@[simp] theorem State.writeV_i (s : State) (r : Reg) (b : Byte) : (s.writeV r b).i = s.i := rfl
@[simp] theorem State.writeV_pc (s : State) (r : Reg) (b : Byte) : (s.writeV r b).pc = s.pc := rfl
@[simp] theorem State.writeV_sp (s : State) (r : Reg) (b : Byte) : (s.writeV r b).sp = s.sp := rfl
@[simp] theorem State.writeV_stack (s : State) (r : Reg) (b : Byte) : (s.writeV r b).stack = s.stack := rfl
@[simp] theorem State.writeV_dt (s : State) (r : Reg) (b : Byte) : (s.writeV r b).dt = s.dt := rfl
@[simp] theorem State.writeV_st (s : State) (r : Reg) (b : Byte) : (s.writeV r b).st = s.st := rfl
@[simp] theorem State.writeV_fb (s : State) (r : Reg) (b : Byte) : (s.writeV r b).fb = s.fb := rfl
@[simp] theorem State.writeV_drawFlag (s : State) (r : Reg) (b : Byte) : (s.writeV r b).drawFlag = s.drawFlag := rfl
@[simp] theorem State.writeV_keys (s : State) (r : Reg) (b : Byte) : (s.writeV r b).keys = s.keys := rfl
@[simp] theorem State.writeV_keysPrev (s : State) (r : Reg) (b : Byte) : (s.writeV r b).keysPrev = s.keysPrev := rfl
@[simp] theorem State.writeV_waitState (s : State) (r : Reg) (b : Byte) : (s.writeV r b).waitState = s.waitState := rfl
@[simp] theorem State.writeV_waitAddr (s : State) (r : Reg) (b : Byte) : (s.writeV r b).waitAddr = s.waitAddr := rfl
@[simp] theorem State.writeV_halted (s : State) (r : Reg) (b : Byte) : (s.writeV r b).halted = s.halted := rfl
@[simp] theorem State.writeV_faultCode (s : State) (r : Reg) (b : Byte) : (s.writeV r b).faultCode = s.faultCode := rfl
@[simp] theorem State.writeV_faultInfo (s : State) (r : Reg) (b : Byte) : (s.writeV r b).faultInfo = s.faultInfo := rfl
@[simp] theorem State.writeV_lastStatus (s : State) (r : Reg) (b : Byte) : (s.writeV r b).lastStatus = s.lastStatus := rfl
@[simp] theorem State.writeV_diagWord (s : State) (r : Reg) (b : Byte) : (s.writeV r b).diagWord = s.diagWord := rfl
@[simp] theorem State.writeV_params (s : State) (r : Reg) (b : Byte) : (s.writeV r b).params = s.params := rfl
@[simp] theorem State.writeV_freeDraws (s : State) (r : Reg) (b : Byte) : (s.writeV r b).freeDraws = s.freeDraws := rfl

/-! `advance` changes PC only. -/

@[simp] theorem State.advance_mem (s : State) : s.advance.mem = s.mem := rfl
@[simp] theorem State.advance_v (s : State) : s.advance.v = s.v := rfl
@[simp] theorem State.advance_i (s : State) : s.advance.i = s.i := rfl
@[simp] theorem State.advance_pc (s : State) : s.advance.pc = s.pc + 2 := rfl
@[simp] theorem State.advance_sp (s : State) : s.advance.sp = s.sp := rfl
@[simp] theorem State.advance_stack (s : State) : s.advance.stack = s.stack := rfl
@[simp] theorem State.advance_dt (s : State) : s.advance.dt = s.dt := rfl
@[simp] theorem State.advance_st (s : State) : s.advance.st = s.st := rfl
@[simp] theorem State.advance_fb (s : State) : s.advance.fb = s.fb := rfl
@[simp] theorem State.advance_drawFlag (s : State) : s.advance.drawFlag = s.drawFlag := rfl
@[simp] theorem State.advance_keys (s : State) : s.advance.keys = s.keys := rfl
@[simp] theorem State.advance_keysPrev (s : State) : s.advance.keysPrev = s.keysPrev := rfl
@[simp] theorem State.advance_waitState (s : State) : s.advance.waitState = s.waitState := rfl
@[simp] theorem State.advance_waitAddr (s : State) : s.advance.waitAddr = s.waitAddr := rfl
@[simp] theorem State.advance_halted (s : State) : s.advance.halted = s.halted := rfl
@[simp] theorem State.advance_faultCode (s : State) : s.advance.faultCode = s.faultCode := rfl
@[simp] theorem State.advance_faultInfo (s : State) : s.advance.faultInfo = s.faultInfo := rfl
@[simp] theorem State.advance_lastStatus (s : State) : s.advance.lastStatus = s.lastStatus := rfl
@[simp] theorem State.advance_diagWord (s : State) : s.advance.diagWord = s.diagWord := rfl
@[simp] theorem State.advance_params (s : State) : s.advance.params = s.params := rfl
@[simp] theorem State.advance_freeDraws (s : State) : s.advance.freeDraws = s.freeDraws := rfl

/-! `begin` changes PC and the wait only. -/

@[simp] theorem State.begin_mem (s : State) : s.begin.mem = s.mem := rfl
@[simp] theorem State.begin_v (s : State) : s.begin.v = s.v := rfl
@[simp] theorem State.begin_i (s : State) : s.begin.i = s.i := rfl
@[simp] theorem State.begin_pc (s : State) : s.begin.pc = s.pc + 2 := rfl
@[simp] theorem State.begin_sp (s : State) : s.begin.sp = s.sp := rfl
@[simp] theorem State.begin_stack (s : State) : s.begin.stack = s.stack := rfl
@[simp] theorem State.begin_dt (s : State) : s.begin.dt = s.dt := rfl
@[simp] theorem State.begin_st (s : State) : s.begin.st = s.st := rfl
@[simp] theorem State.begin_fb (s : State) : s.begin.fb = s.fb := rfl
@[simp] theorem State.begin_drawFlag (s : State) : s.begin.drawFlag = s.drawFlag := rfl
@[simp] theorem State.begin_keys (s : State) : s.begin.keys = s.keys := rfl
@[simp] theorem State.begin_keysPrev (s : State) : s.begin.keysPrev = s.keysPrev := rfl
@[simp] theorem State.begin_waitState (s : State) : s.begin.waitState = .idle := rfl
@[simp] theorem State.begin_waitAddr (s : State) : s.begin.waitAddr = s.waitAddr := rfl
@[simp] theorem State.begin_halted (s : State) : s.begin.halted = s.halted := rfl
@[simp] theorem State.begin_faultCode (s : State) : s.begin.faultCode = s.faultCode := rfl
@[simp] theorem State.begin_faultInfo (s : State) : s.begin.faultInfo = s.faultInfo := rfl
@[simp] theorem State.begin_lastStatus (s : State) : s.begin.lastStatus = s.lastStatus := rfl
@[simp] theorem State.begin_diagWord (s : State) : s.begin.diagWord = s.diagWord := rfl
@[simp] theorem State.begin_params (s : State) : s.begin.params = s.params := rfl
@[simp] theorem State.begin_freeDraws (s : State) : s.begin.freeDraws = s.freeDraws := rfl

/-! `takeFault` changes the latch only (60_exceptions.md R125). -/

@[simp] theorem takeFault_mem (s : State) (f : FaultEvent) : (takeFault s f).mem = s.mem := rfl
@[simp] theorem takeFault_v (s : State) (f : FaultEvent) : (takeFault s f).v = s.v := rfl
@[simp] theorem takeFault_i (s : State) (f : FaultEvent) : (takeFault s f).i = s.i := rfl
@[simp] theorem takeFault_pc (s : State) (f : FaultEvent) : (takeFault s f).pc = s.pc := rfl
@[simp] theorem takeFault_sp (s : State) (f : FaultEvent) : (takeFault s f).sp = s.sp := rfl
@[simp] theorem takeFault_stack (s : State) (f : FaultEvent) : (takeFault s f).stack = s.stack := rfl
@[simp] theorem takeFault_dt (s : State) (f : FaultEvent) : (takeFault s f).dt = s.dt := rfl
@[simp] theorem takeFault_st (s : State) (f : FaultEvent) : (takeFault s f).st = s.st := rfl
@[simp] theorem takeFault_fb (s : State) (f : FaultEvent) : (takeFault s f).fb = s.fb := rfl
@[simp] theorem takeFault_drawFlag (s : State) (f : FaultEvent) : (takeFault s f).drawFlag = s.drawFlag := rfl
@[simp] theorem takeFault_keys (s : State) (f : FaultEvent) : (takeFault s f).keys = s.keys := rfl
@[simp] theorem takeFault_keysPrev (s : State) (f : FaultEvent) : (takeFault s f).keysPrev = s.keysPrev := rfl
@[simp] theorem takeFault_waitState (s : State) (f : FaultEvent) : (takeFault s f).waitState = s.waitState := rfl
@[simp] theorem takeFault_waitAddr (s : State) (f : FaultEvent) : (takeFault s f).waitAddr = s.waitAddr := rfl
@[simp] theorem takeFault_halted (s : State) (f : FaultEvent) : (takeFault s f).halted = true := rfl
@[simp] theorem takeFault_faultCode (s : State) (f : FaultEvent) : (takeFault s f).faultCode = f.code := rfl
@[simp] theorem takeFault_faultInfo (s : State) (f : FaultEvent) : (takeFault s f).faultInfo = f.info := rfl
@[simp] theorem takeFault_lastStatus (s : State) (f : FaultEvent) : (takeFault s f).lastStatus = .fault := rfl
@[simp] theorem takeFault_diagWord (s : State) (f : FaultEvent) : (takeFault s f).diagWord = s.diagWord := rfl
@[simp] theorem takeFault_params (s : State) (f : FaultEvent) : (takeFault s f).params = s.params := rfl
@[simp] theorem takeFault_freeDraws (s : State) (f : FaultEvent) : (takeFault s f).freeDraws = s.freeDraws := rfl

/-! `push` changes SP and the stack only. -/

@[simp] theorem State.push_mem (s : State) (a : Word) (h : s.sp.val < Config.stackDepth) : (s.push a h).mem = s.mem := rfl
@[simp] theorem State.push_v (s : State) (a : Word) (h : s.sp.val < Config.stackDepth) : (s.push a h).v = s.v := rfl
@[simp] theorem State.push_i (s : State) (a : Word) (h : s.sp.val < Config.stackDepth) : (s.push a h).i = s.i := rfl
@[simp] theorem State.push_pc (s : State) (a : Word) (h : s.sp.val < Config.stackDepth) : (s.push a h).pc = s.pc := rfl
@[simp] theorem State.push_sp (s : State) (a : Word) (h : s.sp.val < Config.stackDepth) : (s.push a h).sp = ⟨s.sp.val + 1, Nat.succ_lt_succ h⟩ := rfl
@[simp] theorem State.push_stack (s : State) (a : Word) (h : s.sp.val < Config.stackDepth) : (s.push a h).stack = s.stack.set s.sp.val a h := rfl
@[simp] theorem State.push_dt (s : State) (a : Word) (h : s.sp.val < Config.stackDepth) : (s.push a h).dt = s.dt := rfl
@[simp] theorem State.push_st (s : State) (a : Word) (h : s.sp.val < Config.stackDepth) : (s.push a h).st = s.st := rfl
@[simp] theorem State.push_fb (s : State) (a : Word) (h : s.sp.val < Config.stackDepth) : (s.push a h).fb = s.fb := rfl
@[simp] theorem State.push_drawFlag (s : State) (a : Word) (h : s.sp.val < Config.stackDepth) : (s.push a h).drawFlag = s.drawFlag := rfl
@[simp] theorem State.push_keys (s : State) (a : Word) (h : s.sp.val < Config.stackDepth) : (s.push a h).keys = s.keys := rfl
@[simp] theorem State.push_keysPrev (s : State) (a : Word) (h : s.sp.val < Config.stackDepth) : (s.push a h).keysPrev = s.keysPrev := rfl
@[simp] theorem State.push_waitState (s : State) (a : Word) (h : s.sp.val < Config.stackDepth) : (s.push a h).waitState = s.waitState := rfl
@[simp] theorem State.push_waitAddr (s : State) (a : Word) (h : s.sp.val < Config.stackDepth) : (s.push a h).waitAddr = s.waitAddr := rfl
@[simp] theorem State.push_halted (s : State) (a : Word) (h : s.sp.val < Config.stackDepth) : (s.push a h).halted = s.halted := rfl
@[simp] theorem State.push_faultCode (s : State) (a : Word) (h : s.sp.val < Config.stackDepth) : (s.push a h).faultCode = s.faultCode := rfl
@[simp] theorem State.push_faultInfo (s : State) (a : Word) (h : s.sp.val < Config.stackDepth) : (s.push a h).faultInfo = s.faultInfo := rfl
@[simp] theorem State.push_lastStatus (s : State) (a : Word) (h : s.sp.val < Config.stackDepth) : (s.push a h).lastStatus = s.lastStatus := rfl
@[simp] theorem State.push_diagWord (s : State) (a : Word) (h : s.sp.val < Config.stackDepth) : (s.push a h).diagWord = s.diagWord := rfl
@[simp] theorem State.push_params (s : State) (a : Word) (h : s.sp.val < Config.stackDepth) : (s.push a h).params = s.params := rfl
@[simp] theorem State.push_freeDraws (s : State) (a : Word) (h : s.sp.val < Config.stackDepth) : (s.push a h).freeDraws = s.freeDraws := rfl

/-! `drop` changes SP only. -/

@[simp] theorem State.drop_mem (s : State) : s.drop.mem = s.mem := rfl
@[simp] theorem State.drop_v (s : State) : s.drop.v = s.v := rfl
@[simp] theorem State.drop_i (s : State) : s.drop.i = s.i := rfl
@[simp] theorem State.drop_pc (s : State) : s.drop.pc = s.pc := rfl
@[simp] theorem State.drop_stack (s : State) : s.drop.stack = s.stack := rfl
@[simp] theorem State.drop_dt (s : State) : s.drop.dt = s.dt := rfl
@[simp] theorem State.drop_st (s : State) : s.drop.st = s.st := rfl
@[simp] theorem State.drop_fb (s : State) : s.drop.fb = s.fb := rfl
@[simp] theorem State.drop_drawFlag (s : State) : s.drop.drawFlag = s.drawFlag := rfl
@[simp] theorem State.drop_keys (s : State) : s.drop.keys = s.keys := rfl
@[simp] theorem State.drop_keysPrev (s : State) : s.drop.keysPrev = s.keysPrev := rfl
@[simp] theorem State.drop_waitState (s : State) : s.drop.waitState = s.waitState := rfl
@[simp] theorem State.drop_waitAddr (s : State) : s.drop.waitAddr = s.waitAddr := rfl
@[simp] theorem State.drop_halted (s : State) : s.drop.halted = s.halted := rfl
@[simp] theorem State.drop_faultCode (s : State) : s.drop.faultCode = s.faultCode := rfl
@[simp] theorem State.drop_faultInfo (s : State) : s.drop.faultInfo = s.faultInfo := rfl
@[simp] theorem State.drop_lastStatus (s : State) : s.drop.lastStatus = s.lastStatus := rfl
@[simp] theorem State.drop_diagWord (s : State) : s.drop.diagWord = s.diagWord := rfl
@[simp] theorem State.drop_params (s : State) : s.drop.params = s.params := rfl
@[simp] theorem State.drop_freeDraws (s : State) : s.drop.freeDraws = s.freeDraws := rfl
@[simp] theorem State.drop_sp_val (s : State) : s.drop.sp.val = s.sp.val - 1 := rfl

/-! `writeVfAny` changes VF and the count of draws only. -/

@[simp] theorem State.writeVfAny_mem (s : State) : s.writeVfAny.mem = s.mem := rfl
@[simp] theorem State.writeVfAny_v (s : State) : s.writeVfAny.v = s.v.set regF (Config.vfAnyValue s.freeDraws) := rfl
@[simp] theorem State.writeVfAny_i (s : State) : s.writeVfAny.i = s.i := rfl
@[simp] theorem State.writeVfAny_pc (s : State) : s.writeVfAny.pc = s.pc := rfl
@[simp] theorem State.writeVfAny_sp (s : State) : s.writeVfAny.sp = s.sp := rfl
@[simp] theorem State.writeVfAny_stack (s : State) : s.writeVfAny.stack = s.stack := rfl
@[simp] theorem State.writeVfAny_dt (s : State) : s.writeVfAny.dt = s.dt := rfl
@[simp] theorem State.writeVfAny_st (s : State) : s.writeVfAny.st = s.st := rfl
@[simp] theorem State.writeVfAny_fb (s : State) : s.writeVfAny.fb = s.fb := rfl
@[simp] theorem State.writeVfAny_drawFlag (s : State) : s.writeVfAny.drawFlag = s.drawFlag := rfl
@[simp] theorem State.writeVfAny_keys (s : State) : s.writeVfAny.keys = s.keys := rfl
@[simp] theorem State.writeVfAny_keysPrev (s : State) : s.writeVfAny.keysPrev = s.keysPrev := rfl
@[simp] theorem State.writeVfAny_waitState (s : State) : s.writeVfAny.waitState = s.waitState := rfl
@[simp] theorem State.writeVfAny_waitAddr (s : State) : s.writeVfAny.waitAddr = s.waitAddr := rfl
@[simp] theorem State.writeVfAny_halted (s : State) : s.writeVfAny.halted = s.halted := rfl
@[simp] theorem State.writeVfAny_faultCode (s : State) : s.writeVfAny.faultCode = s.faultCode := rfl
@[simp] theorem State.writeVfAny_faultInfo (s : State) : s.writeVfAny.faultInfo = s.faultInfo := rfl
@[simp] theorem State.writeVfAny_lastStatus (s : State) : s.writeVfAny.lastStatus = s.lastStatus := rfl
@[simp] theorem State.writeVfAny_diagWord (s : State) : s.writeVfAny.diagWord = s.diagWord := rfl
@[simp] theorem State.writeVfAny_params (s : State) : s.writeVfAny.params = s.params := rfl
@[simp] theorem State.writeVfAny_freeDraws (s : State) : s.writeVfAny.freeDraws = s.freeDraws + 1 := rfl

/-! `drawRandom` changes the count of draws only. -/

@[simp] theorem State.drawRandom_mem (s : State) : s.drawRandom.2.mem = s.mem := rfl
@[simp] theorem State.drawRandom_v (s : State) : s.drawRandom.2.v = s.v := rfl
@[simp] theorem State.drawRandom_i (s : State) : s.drawRandom.2.i = s.i := rfl
@[simp] theorem State.drawRandom_pc (s : State) : s.drawRandom.2.pc = s.pc := rfl
@[simp] theorem State.drawRandom_sp (s : State) : s.drawRandom.2.sp = s.sp := rfl
@[simp] theorem State.drawRandom_stack (s : State) : s.drawRandom.2.stack = s.stack := rfl
@[simp] theorem State.drawRandom_dt (s : State) : s.drawRandom.2.dt = s.dt := rfl
@[simp] theorem State.drawRandom_st (s : State) : s.drawRandom.2.st = s.st := rfl
@[simp] theorem State.drawRandom_fb (s : State) : s.drawRandom.2.fb = s.fb := rfl
@[simp] theorem State.drawRandom_drawFlag (s : State) : s.drawRandom.2.drawFlag = s.drawFlag := rfl
@[simp] theorem State.drawRandom_keys (s : State) : s.drawRandom.2.keys = s.keys := rfl
@[simp] theorem State.drawRandom_keysPrev (s : State) : s.drawRandom.2.keysPrev = s.keysPrev := rfl
@[simp] theorem State.drawRandom_waitState (s : State) : s.drawRandom.2.waitState = s.waitState := rfl
@[simp] theorem State.drawRandom_waitAddr (s : State) : s.drawRandom.2.waitAddr = s.waitAddr := rfl
@[simp] theorem State.drawRandom_halted (s : State) : s.drawRandom.2.halted = s.halted := rfl
@[simp] theorem State.drawRandom_faultCode (s : State) : s.drawRandom.2.faultCode = s.faultCode := rfl
@[simp] theorem State.drawRandom_faultInfo (s : State) : s.drawRandom.2.faultInfo = s.faultInfo := rfl
@[simp] theorem State.drawRandom_lastStatus (s : State) : s.drawRandom.2.lastStatus = s.lastStatus := rfl
@[simp] theorem State.drawRandom_diagWord (s : State) : s.drawRandom.2.diagWord = s.diagWord := rfl
@[simp] theorem State.drawRandom_params (s : State) : s.drawRandom.2.params = s.params := rfl
@[simp] theorem State.drawRandom_freeDraws (s : State) : s.drawRandom.2.freeDraws = s.freeDraws + 1 := rfl

/-! `waitAgain` changes PC and the snapshot only. -/

@[simp] theorem State.waitAgain_mem (s : State) : s.waitAgain.mem = s.mem := rfl
@[simp] theorem State.waitAgain_v (s : State) : s.waitAgain.v = s.v := rfl
@[simp] theorem State.waitAgain_i (s : State) : s.waitAgain.i = s.i := rfl
@[simp] theorem State.waitAgain_pc (s : State) : s.waitAgain.pc = s.pc - 2 := rfl
@[simp] theorem State.waitAgain_sp (s : State) : s.waitAgain.sp = s.sp := rfl
@[simp] theorem State.waitAgain_stack (s : State) : s.waitAgain.stack = s.stack := rfl
@[simp] theorem State.waitAgain_dt (s : State) : s.waitAgain.dt = s.dt := rfl
@[simp] theorem State.waitAgain_st (s : State) : s.waitAgain.st = s.st := rfl
@[simp] theorem State.waitAgain_fb (s : State) : s.waitAgain.fb = s.fb := rfl
@[simp] theorem State.waitAgain_drawFlag (s : State) : s.waitAgain.drawFlag = s.drawFlag := rfl
@[simp] theorem State.waitAgain_keys (s : State) : s.waitAgain.keys = s.keys := rfl
@[simp] theorem State.waitAgain_keysPrev (s : State) : s.waitAgain.keysPrev = s.keys := rfl
@[simp] theorem State.waitAgain_waitState (s : State) : s.waitAgain.waitState = s.waitState := rfl
@[simp] theorem State.waitAgain_waitAddr (s : State) : s.waitAgain.waitAddr = s.waitAddr := rfl
@[simp] theorem State.waitAgain_halted (s : State) : s.waitAgain.halted = s.halted := rfl
@[simp] theorem State.waitAgain_faultCode (s : State) : s.waitAgain.faultCode = s.faultCode := rfl
@[simp] theorem State.waitAgain_faultInfo (s : State) : s.waitAgain.faultInfo = s.faultInfo := rfl
@[simp] theorem State.waitAgain_lastStatus (s : State) : s.waitAgain.lastStatus = s.lastStatus := rfl
@[simp] theorem State.waitAgain_diagWord (s : State) : s.waitAgain.diagWord = s.diagWord := rfl
@[simp] theorem State.waitAgain_params (s : State) : s.waitAgain.params = s.params := rfl
@[simp] theorem State.waitAgain_freeDraws (s : State) : s.waitAgain.freeDraws = s.freeDraws := rfl

/-! `enterWait` changes PC, the snapshot and the wait only. -/

@[simp] theorem State.enterWait_mem (s : State) (a : Word) : (s.enterWait a).mem = s.mem := rfl
@[simp] theorem State.enterWait_v (s : State) (a : Word) : (s.enterWait a).v = s.v := rfl
@[simp] theorem State.enterWait_i (s : State) (a : Word) : (s.enterWait a).i = s.i := rfl
@[simp] theorem State.enterWait_pc (s : State) (a : Word) : (s.enterWait a).pc = s.pc - 2 := rfl
@[simp] theorem State.enterWait_sp (s : State) (a : Word) : (s.enterWait a).sp = s.sp := rfl
@[simp] theorem State.enterWait_stack (s : State) (a : Word) : (s.enterWait a).stack = s.stack := rfl
@[simp] theorem State.enterWait_dt (s : State) (a : Word) : (s.enterWait a).dt = s.dt := rfl
@[simp] theorem State.enterWait_st (s : State) (a : Word) : (s.enterWait a).st = s.st := rfl
@[simp] theorem State.enterWait_fb (s : State) (a : Word) : (s.enterWait a).fb = s.fb := rfl
@[simp] theorem State.enterWait_drawFlag (s : State) (a : Word) : (s.enterWait a).drawFlag = s.drawFlag := rfl
@[simp] theorem State.enterWait_keys (s : State) (a : Word) : (s.enterWait a).keys = s.keys := rfl
@[simp] theorem State.enterWait_keysPrev (s : State) (a : Word) : (s.enterWait a).keysPrev = s.keys := rfl
@[simp] theorem State.enterWait_waitState (s : State) (a : Word) : (s.enterWait a).waitState = .waiting := rfl
@[simp] theorem State.enterWait_waitAddr (s : State) (a : Word) : (s.enterWait a).waitAddr = a := rfl
@[simp] theorem State.enterWait_halted (s : State) (a : Word) : (s.enterWait a).halted = s.halted := rfl
@[simp] theorem State.enterWait_faultCode (s : State) (a : Word) : (s.enterWait a).faultCode = s.faultCode := rfl
@[simp] theorem State.enterWait_faultInfo (s : State) (a : Word) : (s.enterWait a).faultInfo = s.faultInfo := rfl
@[simp] theorem State.enterWait_lastStatus (s : State) (a : Word) : (s.enterWait a).lastStatus = s.lastStatus := rfl
@[simp] theorem State.enterWait_diagWord (s : State) (a : Word) : (s.enterWait a).diagWord = s.diagWord := rfl
@[simp] theorem State.enterWait_params (s : State) (a : Word) : (s.enterWait a).params = s.params := rfl
@[simp] theorem State.enterWait_freeDraws (s : State) (a : Word) : (s.enterWait a).freeDraws = s.freeDraws := rfl

/-! `tick` changes the timers only. -/

@[simp] theorem State.tick_mem (s : State) : s.tick.mem = s.mem := rfl
@[simp] theorem State.tick_v (s : State) : s.tick.v = s.v := rfl
@[simp] theorem State.tick_i (s : State) : s.tick.i = s.i := rfl
@[simp] theorem State.tick_pc (s : State) : s.tick.pc = s.pc := rfl
@[simp] theorem State.tick_sp (s : State) : s.tick.sp = s.sp := rfl
@[simp] theorem State.tick_stack (s : State) : s.tick.stack = s.stack := rfl
@[simp] theorem State.tick_dt (s : State) : s.tick.dt = countdown s.dt := rfl
@[simp] theorem State.tick_st (s : State) : s.tick.st = countdown s.st := rfl
@[simp] theorem State.tick_fb (s : State) : s.tick.fb = s.fb := rfl
@[simp] theorem State.tick_drawFlag (s : State) : s.tick.drawFlag = s.drawFlag := rfl
@[simp] theorem State.tick_keys (s : State) : s.tick.keys = s.keys := rfl
@[simp] theorem State.tick_keysPrev (s : State) : s.tick.keysPrev = s.keysPrev := rfl
@[simp] theorem State.tick_waitState (s : State) : s.tick.waitState = s.waitState := rfl
@[simp] theorem State.tick_waitAddr (s : State) : s.tick.waitAddr = s.waitAddr := rfl
@[simp] theorem State.tick_halted (s : State) : s.tick.halted = s.halted := rfl
@[simp] theorem State.tick_faultCode (s : State) : s.tick.faultCode = s.faultCode := rfl
@[simp] theorem State.tick_faultInfo (s : State) : s.tick.faultInfo = s.faultInfo := rfl
@[simp] theorem State.tick_lastStatus (s : State) : s.tick.lastStatus = s.lastStatus := rfl
@[simp] theorem State.tick_diagWord (s : State) : s.tick.diagWord = s.diagWord := rfl
@[simp] theorem State.tick_params (s : State) : s.tick.params = s.params := rfl
@[simp] theorem State.tick_freeDraws (s : State) : s.tick.freeDraws = s.freeDraws := rfl

/-! `init` sets every element of the spec and keeps the parameters and the count of draws. -/

@[simp] theorem State.init_mem (s : State) : s.init.mem = initialMemory s.params := rfl
@[simp] theorem State.init_v (s : State) : s.init.v = State.reset.v := rfl
@[simp] theorem State.init_i (s : State) : s.init.i = State.reset.i := rfl
@[simp] theorem State.init_pc (s : State) : s.init.pc = State.reset.pc := rfl
@[simp] theorem State.init_sp (s : State) : s.init.sp = State.reset.sp := rfl
@[simp] theorem State.init_stack (s : State) : s.init.stack = State.reset.stack := rfl
@[simp] theorem State.init_dt (s : State) : s.init.dt = State.reset.dt := rfl
@[simp] theorem State.init_st (s : State) : s.init.st = State.reset.st := rfl
@[simp] theorem State.init_fb (s : State) : s.init.fb = State.reset.fb := rfl
@[simp] theorem State.init_drawFlag (s : State) : s.init.drawFlag = State.reset.drawFlag := rfl
@[simp] theorem State.init_keys (s : State) : s.init.keys = State.reset.keys := rfl
@[simp] theorem State.init_keysPrev (s : State) : s.init.keysPrev = State.reset.keysPrev := rfl
@[simp] theorem State.init_waitState (s : State) : s.init.waitState = State.reset.waitState := rfl
@[simp] theorem State.init_waitAddr (s : State) : s.init.waitAddr = State.reset.waitAddr := rfl
@[simp] theorem State.init_halted (s : State) : s.init.halted = State.reset.halted := rfl
@[simp] theorem State.init_faultCode (s : State) : s.init.faultCode = State.reset.faultCode := rfl
@[simp] theorem State.init_faultInfo (s : State) : s.init.faultInfo = State.reset.faultInfo := rfl
@[simp] theorem State.init_lastStatus (s : State) : s.init.lastStatus = State.reset.lastStatus := rfl
@[simp] theorem State.init_diagWord (s : State) : s.init.diagWord = State.reset.diagWord := rfl
@[simp] theorem State.init_params (s : State) : s.init.params = s.params := rfl
@[simp] theorem State.init_freeDraws (s : State) : s.init.freeDraws = s.freeDraws := rfl

/-! `skipIf` changes PC only. -/

@[simp] theorem State.skipIf_mem (s : State) (c : Bool) : (s.skipIf c).mem = s.mem := by cases c <;> rfl
@[simp] theorem State.skipIf_v (s : State) (c : Bool) : (s.skipIf c).v = s.v := by cases c <;> rfl
@[simp] theorem State.skipIf_i (s : State) (c : Bool) : (s.skipIf c).i = s.i := by cases c <;> rfl
@[simp] theorem State.skipIf_pc (s : State) (c : Bool) : (s.skipIf c).pc = if c then s.pc + 2 else s.pc := by cases c <;> rfl
@[simp] theorem State.skipIf_sp (s : State) (c : Bool) : (s.skipIf c).sp = s.sp := by cases c <;> rfl
@[simp] theorem State.skipIf_stack (s : State) (c : Bool) : (s.skipIf c).stack = s.stack := by cases c <;> rfl
@[simp] theorem State.skipIf_dt (s : State) (c : Bool) : (s.skipIf c).dt = s.dt := by cases c <;> rfl
@[simp] theorem State.skipIf_st (s : State) (c : Bool) : (s.skipIf c).st = s.st := by cases c <;> rfl
@[simp] theorem State.skipIf_fb (s : State) (c : Bool) : (s.skipIf c).fb = s.fb := by cases c <;> rfl
@[simp] theorem State.skipIf_drawFlag (s : State) (c : Bool) : (s.skipIf c).drawFlag = s.drawFlag := by cases c <;> rfl
@[simp] theorem State.skipIf_keys (s : State) (c : Bool) : (s.skipIf c).keys = s.keys := by cases c <;> rfl
@[simp] theorem State.skipIf_keysPrev (s : State) (c : Bool) : (s.skipIf c).keysPrev = s.keysPrev := by cases c <;> rfl
@[simp] theorem State.skipIf_waitState (s : State) (c : Bool) : (s.skipIf c).waitState = s.waitState := by cases c <;> rfl
@[simp] theorem State.skipIf_waitAddr (s : State) (c : Bool) : (s.skipIf c).waitAddr = s.waitAddr := by cases c <;> rfl
@[simp] theorem State.skipIf_halted (s : State) (c : Bool) : (s.skipIf c).halted = s.halted := by cases c <;> rfl
@[simp] theorem State.skipIf_faultCode (s : State) (c : Bool) : (s.skipIf c).faultCode = s.faultCode := by cases c <;> rfl
@[simp] theorem State.skipIf_faultInfo (s : State) (c : Bool) : (s.skipIf c).faultInfo = s.faultInfo := by cases c <;> rfl
@[simp] theorem State.skipIf_lastStatus (s : State) (c : Bool) : (s.skipIf c).lastStatus = s.lastStatus := by cases c <;> rfl
@[simp] theorem State.skipIf_diagWord (s : State) (c : Bool) : (s.skipIf c).diagWord = s.diagWord := by cases c <;> rfl
@[simp] theorem State.skipIf_params (s : State) (c : Bool) : (s.skipIf c).params = s.params := by cases c <;> rfl
@[simp] theorem State.skipIf_freeDraws (s : State) (c : Bool) : (s.skipIf c).freeDraws = s.freeDraws := by cases c <;> rfl

/-! `writeRF` changes the register file, and the count of draws under AnyValue (30_encoding.md R73). -/

@[simp] theorem State.writeRF_mem (s : State) (x : Reg) (r : Byte) (f : Bool) : (s.writeRF x r f).mem = s.mem := by
  unfold State.writeRF; split <;> rfl
@[simp] theorem State.writeRF_i (s : State) (x : Reg) (r : Byte) (f : Bool) : (s.writeRF x r f).i = s.i := by
  unfold State.writeRF; split <;> rfl
@[simp] theorem State.writeRF_pc (s : State) (x : Reg) (r : Byte) (f : Bool) : (s.writeRF x r f).pc = s.pc := by
  unfold State.writeRF; split <;> rfl
@[simp] theorem State.writeRF_sp (s : State) (x : Reg) (r : Byte) (f : Bool) : (s.writeRF x r f).sp = s.sp := by
  unfold State.writeRF; split <;> rfl
@[simp] theorem State.writeRF_stack (s : State) (x : Reg) (r : Byte) (f : Bool) : (s.writeRF x r f).stack = s.stack := by
  unfold State.writeRF; split <;> rfl
@[simp] theorem State.writeRF_dt (s : State) (x : Reg) (r : Byte) (f : Bool) : (s.writeRF x r f).dt = s.dt := by
  unfold State.writeRF; split <;> rfl
@[simp] theorem State.writeRF_st (s : State) (x : Reg) (r : Byte) (f : Bool) : (s.writeRF x r f).st = s.st := by
  unfold State.writeRF; split <;> rfl
@[simp] theorem State.writeRF_fb (s : State) (x : Reg) (r : Byte) (f : Bool) : (s.writeRF x r f).fb = s.fb := by
  unfold State.writeRF; split <;> rfl
@[simp] theorem State.writeRF_drawFlag (s : State) (x : Reg) (r : Byte) (f : Bool) : (s.writeRF x r f).drawFlag = s.drawFlag := by
  unfold State.writeRF; split <;> rfl
@[simp] theorem State.writeRF_keys (s : State) (x : Reg) (r : Byte) (f : Bool) : (s.writeRF x r f).keys = s.keys := by
  unfold State.writeRF; split <;> rfl
@[simp] theorem State.writeRF_keysPrev (s : State) (x : Reg) (r : Byte) (f : Bool) : (s.writeRF x r f).keysPrev = s.keysPrev := by
  unfold State.writeRF; split <;> rfl
@[simp] theorem State.writeRF_waitState (s : State) (x : Reg) (r : Byte) (f : Bool) : (s.writeRF x r f).waitState = s.waitState := by
  unfold State.writeRF; split <;> rfl
@[simp] theorem State.writeRF_waitAddr (s : State) (x : Reg) (r : Byte) (f : Bool) : (s.writeRF x r f).waitAddr = s.waitAddr := by
  unfold State.writeRF; split <;> rfl
@[simp] theorem State.writeRF_halted (s : State) (x : Reg) (r : Byte) (f : Bool) : (s.writeRF x r f).halted = s.halted := by
  unfold State.writeRF; split <;> rfl
@[simp] theorem State.writeRF_faultCode (s : State) (x : Reg) (r : Byte) (f : Bool) : (s.writeRF x r f).faultCode = s.faultCode := by
  unfold State.writeRF; split <;> rfl
@[simp] theorem State.writeRF_faultInfo (s : State) (x : Reg) (r : Byte) (f : Bool) : (s.writeRF x r f).faultInfo = s.faultInfo := by
  unfold State.writeRF; split <;> rfl
@[simp] theorem State.writeRF_lastStatus (s : State) (x : Reg) (r : Byte) (f : Bool) : (s.writeRF x r f).lastStatus = s.lastStatus := by
  unfold State.writeRF; split <;> rfl
@[simp] theorem State.writeRF_diagWord (s : State) (x : Reg) (r : Byte) (f : Bool) : (s.writeRF x r f).diagWord = s.diagWord := by
  unfold State.writeRF; split <;> rfl
@[simp] theorem State.writeRF_params (s : State) (x : Reg) (r : Byte) (f : Bool) : (s.writeRF x r f).params = s.params := by
  unfold State.writeRF; split <;> rfl

/-- The pair written where VF follows its flag. -/
theorem State.writeRF_flag (s : State) (x : Reg) (r : Byte) (f : Bool) (h : x ≠ regF ∨ s.params.vfAlias = .flagWins) :
    s.writeRF x r f = (s.writeV x r).writeV regF (flagByte f) := if_pos h

/-- The pair written where VF is left open. -/
theorem State.writeRF_any (s : State) (x : Reg) (r : Byte) (f : Bool) (h : ¬ (x ≠ regF ∨ s.params.vfAlias = .flagWins)) :
    s.writeRF x r f = (s.writeV x r).writeVfAny := if_neg h

/-- An executed skip: PC moves by 4 or by 2 (40_control_flow.md R81). -/
theorem State.begin_skipIf (s : State) (c : Bool) :
    s.begin.skipIf c = { s with pc := if c then s.pc + 4 else s.pc + 2, waitState := .idle } := by
  cases c
  · rfl
  · have e : s.pc + 2 + 2 = s.pc + 4 := by bv_omega
    show ({ s with pc := s.pc + 2 + 2, waitState := .idle } : State) = _
    rw [e]; rfl

/-! ### Registers -/

@[simp] theorem State.readV_writeV_same (s : State) (r : Reg) (b : Byte) : (s.writeV r b).readV r = b := by
  simp [State.readV]

theorem State.readV_writeV_other (s : State) (r q : Reg) (b : Byte) (h : q ≠ r) : (s.writeV r b).readV q = s.readV q := by
  have hv : r.val ≠ q.val := fun e => h (Fin.ext e.symm)
  simp [State.readV, hv]

end Sys2Proof.Machine
end

