-- ==== Sys2Proof/Laws/Ops.lean ====
section
/-! SUPPORT. What the frame of a STEP, the meanings and the step itself can do, said once: provers cite these lemmas instead of
unfolding the machine. -/

namespace Sys2Proof.Machine

/-! ### Flags and results -/

theorem flagByte_decide (p : Prop) [Decidable p] : flagByte (decide p) = if p then 1 else 0 := by
  by_cases h : p <;> simp [flagByte, h]

theorem sumByte_toNat (a b : Byte) : (sumByte a b).toNat = (a.toNat + b.toNat) % 256 := BitVec.toNat_ofNat _ 8

theorem diffByte_toNat (a b : Byte) : (diffByte a b).toNat = (a.toNat + 256 - b.toNat) % 256 := BitVec.toNat_ofNat _ 8

theorem shiftRightByte_toNat (b : Byte) : (shiftRightByte b).toNat = b.toNat / 2 := by
  simp [shiftRightByte, Nat.shiftRight_eq_div_pow]

theorem shiftLeftByte_toNat (b : Byte) : (shiftLeftByte b).toNat = 2 * b.toNat % 256 := by
  simp [shiftLeftByte, Nat.shiftLeft_eq, Nat.mul_comm]

theorem bit0Flag_iff (b : Byte) : bit0Flag b = decide (b.toNat % 2 = 1) := by
  simp [bit0Flag, BitVec.getLsbD, Nat.testBit_zero]

theorem bit7Flag_iff (b : Byte) : bit7Flag b = decide (128 ≤ b.toNat) := by
  revert b; decide

/-! ### The frame of a STEP -/

theorem finish_ok (s t : State) : finish s (.ok t) = .next { t with lastStatus := .ok } := rfl
theorem finish_error (s : State) (f : FaultEvent) : finish s (.error f) = .next (takeFault s f) := rfl
theorem retire_eq (t : State) : retire t = .next { t with lastStatus := .ok } := rfl

/-- What a STEP ends in: an executed instruction's state, or the fault taken at the state before it. -/
theorem finish_inv (s u : State) (r : Except FaultEvent State) (h : finish s r = .next u) :
    (∃ t, r = .ok t ∧ u = { t with lastStatus := .ok }) ∨ ∃ f, r = .error f ∧ u = takeFault s f := by
  cases r with
  | ok t => exact .inl ⟨t, rfl, (Host.Outcome.next.inj h).symm⟩
  | error f => exact .inr ⟨f, rfl, (Host.Outcome.next.inj h).symm⟩

/-- `finish` always answers a next state. -/
theorem finish_next (s : State) (r : Except FaultEvent State) : ∃ u, finish s r = .next u := by
  cases r with
  | ok t => exact ⟨_, rfl⟩
  | error f => exact ⟨_, rfl⟩

/-- Every instruction answers a next state from every state: none stops or is refused. -/
theorem exec_next (i : Instr) (s : State) : ∃ u, exec i s = .next u := by
  cases i with
  | ret => exact finish_next s _
  | call nnn => exact finish_next s _
  | drw x y n => exact finish_next s _
  | skp x => exact finish_next s _
  | sknp x => exact finish_next s _
  | ldB x => exact finish_next s _
  | storeRegs x => exact finish_next s _
  | loadRegs x => exact finish_next s _
  | ldVK x => simp only [exec, execLdVK]; split <;> exact ⟨_, rfl⟩
  | _ => exact ⟨_, rfl⟩

/-- What no executed instruction touches: the latch, the key vector and the parameters. -/
def KeepsLatchAndInputs (s u : State) : Prop :=
  u.halted = s.halted ∧ u.faultCode = s.faultCode ∧ u.faultInfo = s.faultInfo ∧ u.diagWord = s.diagWord ∧ u.keys = s.keys ∧
    u.params = s.params

theorem KeepsLatchAndInputs.begin (s : State) : KeepsLatchAndInputs s s.begin := ⟨rfl, rfl, rfl, rfl, rfl, rfl⟩

/-- Every way an instruction can end: a fault with a code taken at the state before it, or an executed instruction whose status
is Ok and which leaves the latch and the inputs alone. -/
def Ended (s u : State) : Prop :=
  (∃ f : FaultEvent, f.code ≠ .none ∧ u = takeFault s f) ∨ (u.lastStatus = .ok ∧ KeepsLatchAndInputs s u)

theorem Ended.retired (s t u : State) (h : retire t = .next u) (hk : KeepsLatchAndInputs s t) : Ended s u := by
  rw [retire_eq] at h; cases h
  exact .inr ⟨rfl, hk⟩

theorem Ended.finished (s u : State) (r : Except FaultEvent State) (h : finish s r = .next u)
    (he : ∀ f, r = .error f → f.code ≠ .none) (ho : ∀ t, r = .ok t → KeepsLatchAndInputs s t) : Ended s u := by
  rcases finish_inv s u r h with ⟨t, hr, rfl⟩ | ⟨f, hr, rfl⟩
  · exact .inr ⟨rfl, ho t hr⟩
  · exact .inl ⟨f, he f hr, rfl⟩

theorem keepsLatch_writeRF (s : State) (x : Reg) (r : Byte) (f : Bool) : KeepsLatchAndInputs s (s.begin.writeRF x r f) := by
  simp [KeepsLatchAndInputs]

theorem keepsLatch_skipIf (s : State) (c : Bool) : KeepsLatchAndInputs s (s.begin.skipIf c) := by
  simp [KeepsLatchAndInputs]

/-! ### Faults of the shared accesses -/

theorem memRead_error (m : Memory) (a : Nat) (f : FaultEvent) (h : memRead m a = .error f) : f.code = .memReadRange := by
  by_cases ha : a < 4096
  · rw [memRead_in m a ha] at h; cases h
  · rw [memRead_out m a (by omega)] at h; cases h; rfl

theorem memWrite_error (p : Config.Params) (m : Memory) (a : Nat) (b : Byte) (f : FaultEvent) (h : memWrite p m a b = .error f) :
    f.code = .memWriteRange ∨ f.code = .fontWrite := by
  unfold memWrite at h
  split at h
  · cases h; exact .inl rfl
  · split at h
    · cases h; exact .inr rfl
    · cases h

theorem memWriteBlock_error (p : Config.Params) : ∀ (bs : List Byte) (m : Memory) (a : Nat) (f : FaultEvent),
    memWriteBlock p m a bs = .error f → f.code = .memWriteRange ∨ f.code = .fontWrite
  | [], _, _, _, h => by cases h
  | b :: rest, m, a, f, h => by
    unfold memWriteBlock at h
    split at h
    · next e => cases h; exact memWrite_error p m a b _ e
    · next m' _ => exact memWriteBlock_error p rest m' (a + 1) f h

theorem memReadBlock_error (m : Memory) : ∀ (n a : Nat) (f : FaultEvent), memReadBlock m a n = .error f → f.code = .memReadRange
  | 0, _, _, h => by cases h
  | n + 1, a, f, h => by
    unfold memReadBlock at h
    split at h
    · next e => cases h; exact memRead_error m a _ e
    · split at h
      · next e => cases h; exact memReadBlock_error m n (a + 1) _ e
      · cases h

theorem drawRows_error (m : Memory) (base xc yc : Nat) : ∀ (k row : Nat) (acc : FrameBuffer × Bool) (f : FaultEvent),
    drawRows m base xc yc k row acc = .error f → f.code = .memReadRange
  | 0, _, _, _, h => by cases h
  | k + 1, row, acc, f, h => by
    unfold drawRows at h
    split at h
    · split at h
      · next e => cases h; exact memRead_error m _ _ e
      · exact drawRows_error m base xc yc k (row + 1) _ f h
    · cases h

theorem keyIndex_in (b : Byte) (h : b.toNat < 16) : keyIndex b = .ok ⟨b.toNat, h⟩ := dif_pos h
theorem keyIndex_out (b : Byte) (h : 15 < b.toNat) : keyIndex b = .error (raiseFault .keyRange b.toNat) :=
  dif_neg (by omega)

theorem keyIndex_error (b : Byte) (f : FaultEvent) (h : keyIndex b = .error f) : f.code = .keyRange := by
  by_cases hb : b.toNat < 16
  · rw [keyIndex_in b hb] at h; cases h
  · rw [keyIndex_out b (by omega)] at h; cases h; rfl

/-! ### Every instruction -/

/-- Everything an instruction can end in, whichever it is. -/
theorem exec_ended (i : Instr) (s u : State) (h : exec i s = .next u) : Ended s u := by
  cases i with
  | ret =>
    refine Ended.finished s u _ h ?_ ?_ <;> intro r hr <;> split at hr <;> cases hr
    · exact FaultCode.noConfusion
    · exact ⟨rfl, rfl, rfl, rfl, rfl, rfl⟩
  | call nnn =>
    refine Ended.finished s u _ h ?_ ?_ <;> intro r hr <;> split at hr <;> cases hr
    · exact FaultCode.noConfusion
    · exact ⟨rfl, rfl, rfl, rfl, rfl, rfl⟩
  | drw x y n =>
    refine Ended.finished s u _ h ?_ ?_ <;> intro r hr <;> split at hr <;> cases hr
    · next e => rw [drawRows_error _ _ _ _ _ _ _ _ e]; exact FaultCode.noConfusion
    · exact ⟨rfl, rfl, rfl, rfl, rfl, rfl⟩
  | skp x =>
    refine Ended.finished s u _ h ?_ ?_ <;> intro r hr <;> split at hr <;> cases hr
    · next e => rw [keyIndex_error _ _ e]; exact FaultCode.noConfusion
    · exact keepsLatch_skipIf s _
  | sknp x =>
    refine Ended.finished s u _ h ?_ ?_ <;> intro r hr <;> split at hr <;> cases hr
    · next e => rw [keyIndex_error _ _ e]; exact FaultCode.noConfusion
    · exact keepsLatch_skipIf s _
  | ldB x =>
    refine Ended.finished s u _ h ?_ ?_ <;> intro r hr <;> split at hr <;> cases hr
    · next e => rcases memWriteBlock_error _ _ _ _ _ e with e | e <;> rw [e] <;> exact FaultCode.noConfusion
    · exact ⟨rfl, rfl, rfl, rfl, rfl, rfl⟩
  | storeRegs x =>
    refine Ended.finished s u _ h ?_ ?_ <;> intro r hr <;> split at hr <;> cases hr
    · next e => rcases memWriteBlock_error _ _ _ _ _ e with e | e <;> rw [e] <;> exact FaultCode.noConfusion
    · exact ⟨rfl, rfl, rfl, rfl, rfl, rfl⟩
  | loadRegs x =>
    refine Ended.finished s u _ h ?_ ?_ <;> intro r hr <;> split at hr <;> cases hr
    · next e => rw [memReadBlock_error _ _ _ _ e]; exact FaultCode.noConfusion
    · exact ⟨rfl, rfl, rfl, rfl, rfl, rfl⟩
  | ldVK x =>
    simp only [exec, execLdVK] at h
    split at h
    · exact Ended.retired s _ u h ⟨rfl, rfl, rfl, rfl, rfl, rfl⟩
    · refine Ended.retired s _ u h ?_
      unfold State.pollWait; split <;> exact ⟨rfl, rfl, rfl, rfl, rfl, rfl⟩
  | seImm x kk => exact Ended.retired s _ u h (keepsLatch_skipIf s _)
  | sneImm x kk => exact Ended.retired s _ u h (keepsLatch_skipIf s _)
  | seReg x y => exact Ended.retired s _ u h (keepsLatch_skipIf s _)
  | sneReg x y => exact Ended.retired s _ u h (keepsLatch_skipIf s _)
  | orReg x y => exact Ended.retired s _ u h (keepsLatch_writeRF s _ _ _)
  | andReg x y => exact Ended.retired s _ u h (keepsLatch_writeRF s _ _ _)
  | xorReg x y => exact Ended.retired s _ u h (keepsLatch_writeRF s _ _ _)
  | addReg x y => exact Ended.retired s _ u h (keepsLatch_writeRF s _ _ _)
  | subReg x y => exact Ended.retired s _ u h (keepsLatch_writeRF s _ _ _)
  | shrReg x y => exact Ended.retired s _ u h (keepsLatch_writeRF s _ _ _)
  | subnReg x y => exact Ended.retired s _ u h (keepsLatch_writeRF s _ _ _)
  | shlReg x y => exact Ended.retired s _ u h (keepsLatch_writeRF s _ _ _)
  | _ => exact Ended.retired s _ u h ⟨rfl, rfl, rfl, rfl, rfl, rfl⟩

/-! ### Fetch and step -/

theorem fetch_in (s : State) (h : s.pc.toNat ≤ 0xFFE) :
    fetch s = .ok (wordOfBytes (s.mem.read s.pc.toNat) (s.mem.read (s.pc.toNat + 1))) := by
  rw [fetch, if_neg]; show ¬ (4096 ≤ s.pc.toNat + 1); omega

theorem fetch_out (s : State) (h : 0xFFF ≤ s.pc.toNat) : fetch s = .error (raiseFault .fetchRange s.pc.toNat) := by
  rw [fetch, if_pos]; show 4096 ≤ s.pc.toNat + 1; omega

theorem step_halted (s : State) (h : s.halted = true) : step s = .fault (.halted s.faultCode) := by
  rw [step, if_pos h]; rfl

theorem step_fetch_fault (s : State) (h : s.halted = false) (hp : 0xFFF ≤ s.pc.toNat) :
    step s = .next (takeFault s (raiseFault .fetchRange s.pc.toNat)) := by
  rw [step, h, fetch_out s hp]; rfl

/-- The three things a step does on a core that is not halted: the fetch faults, the word is unrecognized, or its instruction is
executed (30_encoding.md R66). -/
theorem step_cases (s : State) (h : s.halted = false) :
    (0xFFF ≤ s.pc.toNat ∧ step s = .next (takeFault s (raiseFault .fetchRange s.pc.toNat))) ∨
    (s.pc.toNat ≤ 0xFFE ∧ ∃ w, fetch s = .ok w ∧
      ((∃ i, decodeWord w = .ok i ∧ step s = exec i s) ∨
       (∃ e, decodeWord w = .error e ∧ step s = unrecognizedStep s w))) := by
  by_cases hp : s.pc.toNat ≤ 0xFFE
  · refine .inr ⟨hp, _, fetch_in s hp, ?_⟩
    rw [step, h, fetch_in s hp]
    cases hd : decodeWord (wordOfBytes (s.mem.read s.pc.toNat) (s.mem.read (s.pc.toNat + 1))) with
    | ok i => exact .inl ⟨i, rfl, by simp [hd]⟩
    | error e => exact .inr ⟨e, rfl, by simp [hd]⟩
  · exact .inl ⟨by omega, step_fetch_fault s h (by omega)⟩

/-- A step that answers a next state starts from a core that is not halted. -/
theorem step_next_running (s t : State) (h : step s = .next t) : s.halted = false := by
  cases hh : s.halted with
  | false => rfl
  | true => rw [step_halted s hh] at h; cases h

/-! ### The key wait -/

/-- No key is released: the poll finds none. -/
theorem firstReleased_none (p n : KeyVector) (h : ∀ k : Key, ¬ (p[k] = true ∧ n[k] = false)) : firstReleased p n = none := by
  simp only [firstReleased, List.find?_eq_none]
  intro k _; simpa using h k

/-- The poll finds the lowest released key (44_input_timers.md R116). -/
theorem firstReleased_some (p n : KeyVector) (k : Key) (h : p[k] = true ∧ n[k] = false)
    (hm : ∀ j : Key, j < k → ¬ (p[j] = true ∧ n[j] = false)) : firstReleased p n = some k := by
  cases hf : firstReleased p n with
  | none =>
    simp only [firstReleased, List.find?_eq_none] at hf
    have := hf k (List.mem_finRange k)
    simp [h.1, h.2] at this
  | some j =>
    simp only [firstReleased, List.find?_eq_some_iff_getElem] at hf
    obtain ⟨hp, i, hi, hij, hlt⟩ := hf
    have hjp : p[j] = true ∧ n[j] = false := by simpa using hp
    have hj : j.val = i := by rw [← hij]; simp
    rcases Nat.lt_trichotomy j.val k.val with hlt' | he | hgt
    · exact absurd hjp (hm j hlt')
    · rw [Fin.ext he]
    · have e := hlt k.val (hj ▸ hgt)
      simp [h.1, h.2] at e

theorem State.pollWait_none (s : State) (x : Reg) (h : firstReleased s.keysPrev s.keys = none) : s.pollWait x = s.waitAgain := by
  rw [State.pollWait, h]

theorem State.pollWait_some (s : State) (x : Reg) (k : Key) (h : firstReleased s.keysPrev s.keys = some k) :
    s.pollWait x = { s.writeV x (keyByte k) with keysPrev := s.keys, waitState := .idle } := by
  rw [State.pollWait, h]

/-! ### Register block -/

/-- The bytes of the block V0..Vx. -/
theorem regBlock_length (s : State) (x : Reg) : (s.regBlock x).length = x.val + 1 := by
  have := x.isLt
  simp [State.regBlock]

theorem regBlock_get (s : State) (x : Reg) (k : Nat) (h : k < (s.regBlock x).length) (hk : k < 16) :
    (s.regBlock x)[k] = s.v[k] := by
  simp [State.regBlock]

/-- Everything `setRegsFrom` does: the registers from `k` on take the bytes, the others keep theirs. -/
theorem setRegsFrom_get : ∀ (bs : List Byte) (v : Vector Byte 16) (k j : Nat) (hj : j < 16),
    (setRegsFrom v k bs)[j] = if h : k ≤ j ∧ j < k + bs.length then bs[j - k]'(by omega) else v[j]
  | [], v, k, j, hj => by
    rw [dif_neg (by simp)]; rfl
  | b :: rest, v, k, j, hj => by
    rw [setRegsFrom, setRegsFrom_get rest (v.setIfInBounds k b) (k + 1) j hj]
    by_cases h1 : k + 1 ≤ j ∧ j < k + 1 + rest.length
    · rw [dif_pos h1, dif_pos (by rw [List.length_cons]; omega)]
      have e : j - k = (j - (k + 1)) + 1 := by omega
      simp [e]
    · rw [dif_neg h1]
      by_cases h2 : k = j
      · subst h2
        rw [dif_pos (by rw [List.length_cons]; omega)]
        simp
      · rw [dif_neg (by rw [List.length_cons]; omega)]
        simp [h2]

end Sys2Proof.Machine
end

