-- ==== Sys2Proof/Laws/PerInstr.lean ====
section
/-! SUPPORT. The per-instruction family EncodingMeetsRow: the encoded word of each instruction meets the row the spec prints for it
(30_encoding.md R69), for every value of its operands. -/

namespace Sys2Proof.Laws.EncodingMeetsRow

/-- The encoded word meets the instruction's own row of the opcode map. -/
def Statement (i : Instr) : Prop := i.row.meets (encode i) = true

theorem nibbles_mask_class (c x y n : BitVec 4) : wordOfNibbles c x y n &&& 0xF000 = wordOfNibbles c 0 0 0 := by
  have e : (0xF000 : Word) = wordOfNibbles 0xF 0 0 0 := by decide
  rw [e, wordOfNibbles, wordOfNibbles, wordOfNibbles, BitVec.and_append, BitVec.and_append, BitVec.and_append]
  have h : c &&& 0xF = c := BitVec.and_allOnes (x := c)
  rw [h]; simp

theorem nibbles_mask_n (c x y n : BitVec 4) : wordOfNibbles c x y n &&& 0xF00F = wordOfNibbles c 0 0 n := by
  have e : (0xF00F : Word) = wordOfNibbles 0xF 0 0 0xF := by decide
  rw [e, wordOfNibbles, wordOfNibbles, wordOfNibbles, BitVec.and_append, BitVec.and_append, BitVec.and_append]
  have h : ∀ b : BitVec 4, b &&& 0xF = b := fun b => BitVec.and_allOnes (x := b)
  rw [h, h]; simp

theorem xkk_mask_class (c x : BitVec 4) (kk : Byte) : wordOfXKK c x kk &&& 0xF000 = wordOfXKK c 0 0 := by
  have e : (0xF000 : Word) = wordOfXKK 0xF 0 0 := by decide
  rw [e, wordOfXKK, wordOfXKK, wordOfXKK, BitVec.and_append, BitVec.and_append]
  have h : c &&& 0xF = c := BitVec.and_allOnes (x := c)
  rw [h]; simp

theorem xkk_mask_kk (c x : BitVec 4) (kk : Byte) : wordOfXKK c x kk &&& 0xF0FF = wordOfXKK c 0 kk := by
  have e : (0xF0FF : Word) = wordOfXKK 0xF 0 0xFF := by decide
  rw [e, wordOfXKK, wordOfXKK, wordOfXKK, BitVec.and_append, BitVec.and_append]
  have h : c &&& 0xF = c := BitVec.and_allOnes (x := c)
  have hk : kk &&& 0xFF = kk := BitVec.and_allOnes (x := kk)
  rw [h, hk]; simp

theorem nnn_mask_class (c : BitVec 4) (nnn : Addr12) : wordOfNNN c nnn &&& 0xF000 = wordOfNNN c 0 := by
  have e : (0xF000 : Word) = wordOfNNN 0xF 0 := by decide
  rw [e, wordOfNNN, wordOfNNN, wordOfNNN, BitVec.and_append]
  have h : c &&& 0xF = c := BitVec.and_allOnes (x := c)
  rw [h]; simp

/-- A row is met when the masked word is its pattern. -/
theorem meets_of_masked (r : OpcodeRow) (w : Word) (h : w &&& r.mask = r.pattern) : r.meets w = true := beq_iff_eq.mpr h

theorem cls : Statement .cls := meets_of_masked _ _ (by decide)
theorem ret : Statement .ret := meets_of_masked _ _ (by decide)
theorem jp (nnn : Addr12) : Statement (.jp nnn) := meets_of_masked _ _ ((nnn_mask_class _ nnn).trans rfl)
theorem call (nnn : Addr12) : Statement (.call nnn) := meets_of_masked _ _ ((nnn_mask_class _ nnn).trans rfl)
theorem seImm (x : Reg) (kk : Byte) : Statement (.seImm x kk) := meets_of_masked _ _ ((xkk_mask_class _ _ kk).trans rfl)
theorem sneImm (x : Reg) (kk : Byte) : Statement (.sneImm x kk) := meets_of_masked _ _ ((xkk_mask_class _ _ kk).trans rfl)
theorem seReg (x y : Reg) : Statement (.seReg x y) := meets_of_masked _ _ ((nibbles_mask_n _ _ _ _).trans rfl)
theorem ldImm (x : Reg) (kk : Byte) : Statement (.ldImm x kk) := meets_of_masked _ _ ((xkk_mask_class _ _ kk).trans rfl)
theorem addImm (x : Reg) (kk : Byte) : Statement (.addImm x kk) := meets_of_masked _ _ ((xkk_mask_class _ _ kk).trans rfl)
theorem ldReg (x y : Reg) : Statement (.ldReg x y) := meets_of_masked _ _ ((nibbles_mask_n _ _ _ _).trans rfl)
theorem orReg (x y : Reg) : Statement (.orReg x y) := meets_of_masked _ _ ((nibbles_mask_n _ _ _ _).trans rfl)
theorem andReg (x y : Reg) : Statement (.andReg x y) := meets_of_masked _ _ ((nibbles_mask_n _ _ _ _).trans rfl)
theorem xorReg (x y : Reg) : Statement (.xorReg x y) := meets_of_masked _ _ ((nibbles_mask_n _ _ _ _).trans rfl)
theorem addReg (x y : Reg) : Statement (.addReg x y) := meets_of_masked _ _ ((nibbles_mask_n _ _ _ _).trans rfl)
theorem subReg (x y : Reg) : Statement (.subReg x y) := meets_of_masked _ _ ((nibbles_mask_n _ _ _ _).trans rfl)
theorem shrReg (x y : Reg) : Statement (.shrReg x y) := meets_of_masked _ _ ((nibbles_mask_n _ _ _ _).trans rfl)
theorem subnReg (x y : Reg) : Statement (.subnReg x y) := meets_of_masked _ _ ((nibbles_mask_n _ _ _ _).trans rfl)
theorem shlReg (x y : Reg) : Statement (.shlReg x y) := meets_of_masked _ _ ((nibbles_mask_n _ _ _ _).trans rfl)
theorem sneReg (x y : Reg) : Statement (.sneReg x y) := meets_of_masked _ _ ((nibbles_mask_n _ _ _ _).trans rfl)
theorem ldI (nnn : Addr12) : Statement (.ldI nnn) := meets_of_masked _ _ ((nnn_mask_class _ nnn).trans rfl)
theorem jpV0 (nnn : Addr12) : Statement (.jpV0 nnn) := meets_of_masked _ _ ((nnn_mask_class _ nnn).trans rfl)
theorem rnd (x : Reg) (kk : Byte) : Statement (.rnd x kk) := meets_of_masked _ _ ((xkk_mask_class _ _ kk).trans rfl)
theorem drw (x y : Reg) (n : Height) : Statement (.drw x y n) := meets_of_masked _ _ ((nibbles_mask_class _ _ _ _).trans rfl)
theorem skp (x : Reg) : Statement (.skp x) := meets_of_masked _ _ ((xkk_mask_kk _ _ _).trans rfl)
theorem sknp (x : Reg) : Statement (.sknp x) := meets_of_masked _ _ ((xkk_mask_kk _ _ _).trans rfl)
theorem ldVDt (x : Reg) : Statement (.ldVDt x) := meets_of_masked _ _ ((xkk_mask_kk _ _ _).trans rfl)
theorem ldVK (x : Reg) : Statement (.ldVK x) := meets_of_masked _ _ ((xkk_mask_kk _ _ _).trans rfl)
theorem ldDtV (x : Reg) : Statement (.ldDtV x) := meets_of_masked _ _ ((xkk_mask_kk _ _ _).trans rfl)
theorem ldStV (x : Reg) : Statement (.ldStV x) := meets_of_masked _ _ ((xkk_mask_kk _ _ _).trans rfl)
theorem addI (x : Reg) : Statement (.addI x) := meets_of_masked _ _ ((xkk_mask_kk _ _ _).trans rfl)
theorem ldF (x : Reg) : Statement (.ldF x) := meets_of_masked _ _ ((xkk_mask_kk _ _ _).trans rfl)
theorem ldB (x : Reg) : Statement (.ldB x) := meets_of_masked _ _ ((xkk_mask_kk _ _ _).trans rfl)
theorem storeRegs (x : Reg) : Statement (.storeRegs x) := meets_of_masked _ _ ((xkk_mask_kk _ _ _).trans rfl)
theorem loadRegs (x : Reg) : Statement (.loadRegs x) := meets_of_masked _ _ ((xkk_mask_kk _ _ _).trans rfl)

end Sys2Proof.Laws.EncodingMeetsRow
end

