-- ==== Sys2Proof/Tests/Slice0.lean ====
section
/-! SUPPORT. The model's own tests: words written out from the spec's encodings, ill-formed words, single steps with the results
95_test_vectors.md states (its vector is named in each comment), and for every statement with hypotheses a witness that meets them. -/

namespace Sys2Proof.Tests

open Sys2Proof Sys2Proof.Machine Sys2Proof.Spec

/-! ### Decoding: every constructor, its word written bit by bit from 30_encoding.md R63 and R69 -/

theorem test_decode_control :
    decodeWord 0b0000_0000_1110_0000 = .ok .cls ∧ decodeWord 0b0000_0000_1110_1110 = .ok .ret ∧
    decodeWord 0b0001_1010_1011_1100 = .ok (.jp 0xABC) ∧ decodeWord 0b0010_1010_1011_1100 = .ok (.call 0xABC) ∧
    decodeWord 0b0011_0011_0001_0010 = .ok (.seImm 3 0x12) ∧ decodeWord 0b0100_0011_0001_0010 = .ok (.sneImm 3 0x12) ∧
    decodeWord 0b0101_0001_0010_0000 = .ok (.seReg 1 2) ∧ decodeWord 0b1001_1010_1011_0000 = .ok (.sneReg 10 11) ∧
    decodeWord 0b1011_0111_0000_0000 = .ok (.jpV0 0x700) := by decide

theorem test_decode_loads :
    decodeWord 0b0110_1010_0111_1011 = .ok (.ldImm 10 0x7B) ∧ decodeWord 0b0111_0010_0000_0011 = .ok (.addImm 2 0x03) ∧
    decodeWord 0b1000_0001_0101_0000 = .ok (.ldReg 1 5) ∧ decodeWord 0b1100_0011_0000_1111 = .ok (.rnd 3 0x0F) := by decide

theorem test_decode_alu :
    decodeWord 0b1000_0001_0010_0001 = .ok (.orReg 1 2) ∧ decodeWord 0b1000_0001_0010_0010 = .ok (.andReg 1 2) ∧
    decodeWord 0b1000_0001_0010_0011 = .ok (.xorReg 1 2) ∧ decodeWord 0b1000_0001_0010_0100 = .ok (.addReg 1 2) ∧
    decodeWord 0b1000_0001_0010_0101 = .ok (.subReg 1 2) ∧ decodeWord 0b1000_0001_0010_0110 = .ok (.shrReg 1 2) ∧
    decodeWord 0b1000_0001_0010_0111 = .ok (.subnReg 1 2) ∧ decodeWord 0b1000_1010_1011_1110 = .ok (.shlReg 10 11) := by decide

theorem test_decode_index_display :
    decodeWord 0b1010_1111_1111_1111 = .ok (.ldI 0xFFF) ∧ decodeWord 0b1101_0001_0010_0011 = .ok (.drw 1 2 3) ∧
    decodeWord 0b1111_0100_0001_1110 = .ok (.addI 4) ∧ decodeWord 0b1111_0000_0010_1001 = .ok (.ldF 0) ∧
    decodeWord 0b1111_1010_0011_0011 = .ok (.ldB 10) ∧ decodeWord 0b1111_0001_0101_0101 = .ok (.storeRegs 1) ∧
    decodeWord 0b1111_1111_0110_0101 = .ok (.loadRegs 15) := by decide

theorem test_decode_keys_timers :
    decodeWord 0b1110_0000_1001_1110 = .ok (.skp 0) ∧ decodeWord 0b1110_0101_1010_0001 = .ok (.sknp 5) ∧
    decodeWord 0b1111_0100_0000_0111 = .ok (.ldVDt 4) ∧ decodeWord 0b1111_0000_0000_1010 = .ok (.ldVK 0) ∧
    decodeWord 0b1111_0011_0001_0101 = .ok (.ldDtV 3) ∧ decodeWord 0b1111_0011_0001_1000 = .ok (.ldStV 3) := by decide

/-- 95_test_vectors.md E1. -/
theorem test_fields : opClass 0xD123 = 0xD ∧ fieldX 0xD123 = 1 ∧ fieldY 0xD123 = 2 ∧ fieldN 0xD123 = 3 ∧ fieldKK 0xD123 = 0x23 ∧
    fieldNNN 0xD123 = 0x123 := by decide

theorem test_decode_bytes : decodeBytes [0x12, 0x34] = .ok (.jp 0x234) ∧ decodeBytes [0x51, 0x21, 0x00] = .error (.unrecognized 0x5121) ∧
    decodeBytes [0x12] = .error .truncated ∧ decodeBytes [] = .error .truncated := by decide

/-! ### Well-formedness: an ill-formed word for each check (30_encoding.md R70; 95_test_vectors.md E2) -/

theorem test_ill_formed_class0 : Word.wellFormed 0x0123 = false ∧ Word.wellFormed 0x00E1 = false ∧ Word.wellFormed 0x0000 = false := by
  decide
theorem test_ill_formed_class5 : Word.wellFormed 0x5121 = false := by decide
theorem test_ill_formed_class8 : Word.wellFormed 0x8AB8 = false ∧ Word.wellFormed 0x800F = false := by decide
theorem test_ill_formed_class9 : Word.wellFormed 0x9121 = false := by decide
theorem test_ill_formed_classE : Word.wellFormed 0xE19F = false := by decide
theorem test_ill_formed_classF : Word.wellFormed 0xF0FF = false := by decide
theorem test_well_formed : Word.wellFormed 0x8ABE = true ∧ Word.wellFormed 0x00EE = true ∧ Word.wellFormed 0xE0A1 = true := by decide
theorem test_refused_words : decodeTableWord 16 0x0123 = none ∧ decodeTableWord 16 0x5121 = none ∧ decodeTableWord 16 0x8AB8 = none ∧
    decodeTableWord 16 0x9121 = none ∧ decodeTableWord 16 0xE19F = none ∧ decodeTableWord 16 0xF0FF = none := by decide

/-! ### Single steps -/

/-- The state after reset with some registers set. -/
def regs (rs : List (Reg × Byte)) : State := rs.foldl (fun t p => t.writeV p.1 p.2) State.reset

/-- The state after reset with some registers and I set. -/
def regsI (i : Word) (rs : List (Reg × Byte)) : State := { regs rs with i := i }

/-- The state with bytes placed at an address. -/
def withBytes (a : Nat) (bs : List Byte) (s : State) : State := { s with mem := s.mem.pokeBlock a bs }

/-- The state after one step, if it answers one. -/
def stepped (s : State) : State :=
  match step s with
  | .next t => t
  | .fault _ => s
  | .refused _ => s

/-- One step of the word placed at PC. -/
def ran (w : Nat) (s : State) : State := stepped (s.withFetchWord 16 w)

/-- V[x], VF and PC. -/
def see (x : Reg) (t : State) : Byte × Byte × Word := (t.v[x], t.v[(15 : Reg)], t.pc)

/-- The latch and PC. -/
def latch (t : State) : Bool × FaultCode × Nat × Status × Word := (t.halted, t.faultCode, t.faultInfo.toNat, t.lastStatus, t.pc)

/-- Three bytes of memory from an address. -/
def bytes3 (a : Nat) (t : State) : Byte × Byte × Byte := (t.mem.read a, t.mem.read (a + 1), t.mem.read (a + 2))

/-- 95_test_vectors.md B1. -/
theorem test_jp : (ran 0x1ABC State.reset).pc = 0xABC := by decide
/-- B2. -/
theorem test_call : let t := ran 0x2ABC State.reset; (t.sp.val, t.stack[(0 : Fin 16)], t.pc) = (1, 0x202, 0xABC) := by decide
/-- B3. -/
theorem test_call_full : latch (ran 0x2ABC { State.reset with sp := 16 }) = (true, .stackOverflow, 16, .fault, 0x200) := by decide
/-- B4. -/
theorem test_ret_empty : latch (ran 0x00EE State.reset) = (true, .stackUnderflow, 0, .fault, 0x200) := by decide
/-- B5. -/
theorem test_ret : let t := ran 0x00EE { State.reset with sp := 2, stack := (State.reset.stack.set 0 0x20A).set 1 0x30C }
    (t.pc, t.sp.val, t.stack[(1 : Fin 16)]) = (0x30C, 1, 0x30C) := by decide
/-- B6, B7. -/
theorem test_seImm : (ran 0x3312 (regs [(3, 0x12)])).pc = 0x204 ∧ (ran 0x3312 (regs [(3, 0x13)])).pc = 0x202 := by decide
/-- B8, B9. -/
theorem test_sneImm : (ran 0x4312 (regs [(3, 0x13)])).pc = 0x204 ∧ (ran 0x4312 (regs [(3, 0x12)])).pc = 0x202 := by decide
/-- B10. -/
theorem test_seReg : (ran 0x5120 (regs [(1, 0x40), (2, 0x40)])).pc = 0x204 ∧ (ran 0x5120 (regs [(1, 0x40)])).pc = 0x202 := by decide
/-- B12, B13. -/
theorem test_sneReg : (ran 0x9120 (regs [(1, 0x40), (2, 0x41)])).pc = 0x204 ∧ (ran 0x9110 (regs [(1, 0x40)])).pc = 0x202 := by decide
/-- B15. -/
theorem test_jpV0_top : (ran 0xBFFF (regs [(0, 0xFF)])).pc = 0x10FE := by decide
/-- B16. -/
theorem test_jpV0_reads_V0 : (ran 0xB700 (regs [(0, 0x05), (7, 0x99)])).pc = 0x705 := by decide
/-- A1. -/
theorem test_ldImm : see 10 (ran 0x6A7B State.reset) = (0x7B, 0, 0x202) := by decide
/-- A2. -/
theorem test_addImm : see 2 (ran 0x7203 (regs [(2, 0xFE), (15, 0x55)])) = (0x01, 0x55, 0x202) := by decide
/-- A4. -/
theorem test_ldReg : see 1 (ran 0x8150 (regs [(5, 0x33)])) = (0x33, 0, 0x202) := by decide
/-- A5. -/
theorem test_orReg : see 1 (ran 0x8121 (regs [(1, 0xF0), (2, 0x0F), (15, 1)])) = (0xFF, 0, 0x202) := by decide
/-- A9. -/
theorem test_orReg_reads_old_vf : see 1 (ran 0x81F1 (regs [(1, 0x10), (15, 1)])) = (0x11, 0, 0x202) := by decide
/-- A6. -/
theorem test_andReg : see 1 (ran 0x8122 (regs [(1, 0xF3), (2, 0x3F), (15, 1)])) = (0x33, 0, 0x202) := by decide
/-- A7. -/
theorem test_xorReg : see 1 (ran 0x8123 (regs [(1, 0xFF), (2, 0x0F)])) = (0xF0, 0, 0x202) := by decide
/-- A11. -/
theorem test_addReg : see 0 (ran 0x8014 (regs [(0, 0xFF), (1, 0xFF)])) = (0xFE, 1, 0x202) := by decide
/-- A26 under FlagWins. -/
theorem test_addReg_flag_wins : see 15 (ran 0x8F14 (regs [(15, 0xFF), (1, 0x01)])) = (1, 1, 0x202) := by decide
/-- A14. -/
theorem test_subReg_equal : see 0 (ran 0x8015 (regs [(0, 0x42), (1, 0x42)])) = (0x00, 1, 0x202) := by decide
/-- S3. -/
theorem test_subReg_borrow : see 0 (ran 0x8015 (regs [(0, 0x03), (1, 0x05)])) = (0xFE, 0, 0x202) := by decide
/-- A20. -/
theorem test_shrReg : see 1 (ran 0x8126 (regs [(1, 0xFF), (2, 0x05)])) = (0x02, 1, 0x202) := by decide
/-- A17. -/
theorem test_subnReg : see 1 (ran 0x8127 (regs [(1, 0x03), (2, 0x05)])) = (0x02, 1, 0x202) := by decide
/-- A23. -/
theorem test_shlReg : see 1 (ran 0x812E (regs [(2, 0x81)])) = (0x02, 1, 0x202) := by decide
/-- A30: whatever the draw. -/
theorem test_rnd_zero_mask : see 0 (ran 0xC000 (regs [(0, 0x77)])) = (0x00, 0, 0x202) :=
  congrArg (fun b => (b, 0, 0x202)) (BitVec.and_zero (x := Config.randByte 0))
/-- M1. -/
theorem test_ldI : (ran 0xAFFF State.reset).i = 0xFFF := by decide
/-- M3, M4. -/
theorem test_addI : (ran 0xF01E (regsI 0x0FFF [(0, 1)])).i = 0x1000 ∧ (ran 0xF01E (regsI 0xFFFF [(0, 1)])).i = 0x0000 := by decide
/-- M6. -/
theorem test_ldF : (ran 0xF029 (regs [(0, 0xFF)])).i = 0x4FB := by decide
/-- M8. -/
theorem test_ldB : let t := ran 0xFA33 (regsI 0x300 [(10, 0x7B)]); (bytes3 0x300 t, t.i) = ((1, 2, 3), 0x300) := by decide
/-- M13. -/
theorem test_ldB_font : latch (ran 0xF033 (regsI 0x04F [])) = (true, .fontWrite, 0x04F, .fault, 0x200) := by decide
/-- M15. -/
theorem test_storeRegs : let t := ran 0xF155 (regsI 0x300 [(0, 0xF0), (1, 0x81)])
    (bytes3 0x300 t, t.i) = ((0xF0, 0x81, 0), 0x302) := by decide
/-- M18. -/
theorem test_storeRegs_range : let t := ran 0xF255 (regsI 0xFFE [(0, 1), (1, 2)])
    latch t = (true, .memWriteRange, 0x1000, .fault, 0x200) ∧ bytes3 0xFFE t = (0, 0, 0) ∧ t.i = 0xFFE := by decide
/-- M21, two of its registers. -/
theorem test_loadRegs : let t := ran 0xFF65 (withBytes 0x300 [0x10, 0x11, 0x12] (withBytes 0x30F [0x1F] (regsI 0x300 [])))
    (t.v[(1 : Reg)], t.v[(15 : Reg)], t.i) = (0x11, 0x1F, 0x310) := by decide
/-- M22. -/
theorem test_loadRegs_range : let t := ran 0xF165 (regsI 0xFFF [(0, 0x99)])
    latch t = (true, .memReadRange, 0x1000, .fault, 0x200) ∧ t.v[(0 : Reg)] = 0x99 := by decide
/-- D2. -/
theorem test_cls : let t := ran 0x00E0 { regs [(15, 7)] with fb := Vector.replicate 32 0xFFFFFFFFFFFFFFFF }
    (t.fb, t.drawFlag, t.v[(15 : Reg)]) = (Vector.replicate 32 0, true, 7) := by decide
/-- D6. -/
theorem test_drw_clipped : let t := ran 0xD011 (withBytes 0x300 [0xFF] (regsI 0x300 [(0, 0x3C)]))
    (t.fb, t.v[(15 : Reg)]) = ((Vector.replicate 32 0).set 0 0xF, 0) := by decide
/-- D12. -/
theorem test_drw_origin_in_vf : let t := ran 0xDF01 (withBytes 0x300 [0x80] (regsI 0x300 [(15, 5)]))
    (t.fb, t.v[(15 : Reg)]) = ((Vector.replicate 32 0).set 0 0x0400000000000000, 0) := by decide

/-- The state after reset with some keys pressed. -/
def pressed (ks : List (Fin 16)) (s : State) : State := { s with keys := ks.foldl (fun (v : KeyVector) (k : Fin 16) => v.set k.val true) s.keys }

/-- K1, K2. -/
theorem test_skp : (ran 0xE59E (pressed [3] (regs [(5, 3)]))).pc = 0x204 ∧ (ran 0xE59E (regs [(5, 3)])).pc = 0x202 := by decide
/-- K5. -/
theorem test_skp_range : latch (ran 0xE59E (regs [(5, 0x10)])) = (true, .keyRange, 0x10, .fault, 0x200) := by decide
/-- K3, K4. -/
theorem test_sknp : (ran 0xE5A1 (regs [(5, 3)])).pc = 0x204 ∧ (ran 0xE5A1 (pressed [3] (regs [(5, 3)]))).pc = 0x202 := by decide
/-- K6. -/
theorem test_sknp_range : latch (ran 0xE5A1 (regs [(5, 0xFF)])) = (true, .keyRange, 0xFF, .fault, 0x200) := by decide

/-- A wait at 0x200 whose snapshot holds some keys. -/
def waitingOn (ks : List (Fin 16)) : State :=
  { State.reset with waitState := .waiting, waitAddr := 0x200, keysPrev := (pressed ks State.reset).keys }

/-- K7, the entry. -/
theorem test_ldVK_entry : let t := ran 0xF20A State.reset
    (t.pc, t.waitState, t.waitAddr, t.lastStatus) = (0x200, .waiting, 0x200, .ok) := by decide
/-- K9, the resolving poll: keys 2 and 5 released. -/
theorem test_ldVK_lowest : let t := ran 0xF20A (waitingOn [2, 5])
    (t.v[(2 : Reg)], t.pc, t.waitState) = (2, 0x202, .idle) := by decide
/-- T4. -/
theorem test_ldVDt : see 4 (ran 0xF407 { State.reset with dt := 0x3C }) = (0x3C, 0, 0x202) := by decide
/-- T4. -/
theorem test_ldDtV : (ran 0xF315 (regs [(3, 0x3C)])).dt = 0x3C := by decide
/-- T5. -/
theorem test_ldStV : let t := ran 0xF318 (regs [(3, 2)]); (t.st, t.soundActive) = (2, true) := by decide

/-! ### STEP and the host's operations -/

/-- E2, E4's first half. -/
theorem test_unrecognized : let t := ran 0x8AB8 State.reset
    latch t = (false, .none, 0, .unrecognized, 0x202) ∧ t.diagWord = 0x8AB8 := by decide
/-- E5. -/
theorem test_fetch_last_word : see 0 (ran 0x602A { State.reset with pc := 0xFFE }) = (0x2A, 0, 0x1000) := by decide
/-- E7. -/
theorem test_fetch_range : latch (stepped { State.reset with pc := 0xFFF }) = (true, .fetchRange, 0xFFF, .fault, 0xFFF) := by decide
/-- E9. -/
theorem test_halted : ({ State.reset with halted := true, faultCode := .stackUnderflow } : State).stepOp =
    .ok ({ State.reset with halted := true, faultCode := .stackUnderflow, lastStatus := .fault }, .stepFault .stackUnderflow) := by
  rfl
/-- T2. -/
theorem test_tick : let t := ({ State.reset with dt := 1, st := 2 } : State).tick; (t.dt, t.st, t.soundActive) = (0, 1, true) := by decide
/-- T1. -/
theorem test_tick_clamped : let t := State.reset.tick; (t.dt, t.st) = (0, 0) := by decide
/-- H5. -/
theorem test_load_odd : let t := (State.reset.load [0x12, 0x34, 0x56]).1; bytes3 0x200 t = (0x12, 0x34, 0x56) := by decide
/-- H1 and H2 at the bound, the bound being a parameter. -/
theorem test_load_bound : let s : State := { State.reset with params := { defaultParams with maxProgramLen := 2 } }
    (s.load [1, 2]).2 = .loadOk ∧ (s.load [1, 2, 3]).2 = .loadTooLarge ∧ (s.load [1, 2, 3]).1 = s := by decide
/-- H10. -/
theorem test_font : bytes3 0 State.reset = (0xF0, 0x90, 0x90) ∧ State.reset.mem.read 79 = 0x80 ∧ State.reset.mem.read 80 = 0 := by decide

/-- A font table that is not the default: its glyph 15 begins with AA, every other byte is 0. -/
def otherFont : Config.Params := { defaultParams with fontTable := (Vector.replicate 80 0x00).set 75 0xAA }

/-- A state with that font table and a byte stored in memory. -/
def otherFontState : State := { State.reset with params := otherFont, mem := [(0x300, 1)] }

/-- 20_memory.md R49, 70_reset_and_hazards.md R138: INIT lays down the parameter, glyph d at 5 * d, over what memory held. -/
theorem test_init_font : otherFontState.init.mem.read 75 = 0xAA ∧ otherFontState.init.mem.read 74 = 0 ∧
    otherFontState.init.mem.read 0x300 = 0 := by
  obtain ⟨hf, hz, -⟩ := initialMemory_spec otherFont
  rw [State.init_mem]
  refine ⟨(hf 75).trans ?_, (hf 74).trans ?_, hz 0x300 ?_⟩
  · decide
  · decide
  · decide

/-- 43_display.md R112, 95_test_vectors.md D11: a draw of no row sets drawFlag. -/
theorem test_drw_no_rows : let t := ran 0xD010 (regsI 0xFFFF [(15, 1)]); (t.drawFlag, t.v[(15 : Reg)], t.fb) = (true, 0, State.reset.fb) := by
  decide

/-! ### Witnesses: for each statement with hypotheses, a state and operands that meet them, at the boundaries of its clauses -/

/-- A core at `pc` with a word there. -/
def placed (pc : Word) (hi lo : Byte) (s : State) : State := withBytes pc.toNat [hi, lo] { s with pc := pc }

theorem test_witness_EncodeOfDecode : decodeWord 0x8124 = .ok (.addReg 1 2) ∧ encode (.addReg 1 2) = 0x8124 := by decide

theorem test_witness_DecodeFollowsOpcodeMap :
    (Instr.addReg 0 0).row ∈ opcodeRows ∧ (Instr.addReg 0 0).row.meets 0x8124 = true ∧ decodeWord 0x8124 = .ok (.addReg 1 2) ∧
      (Instr.addReg 1 2).row.meets 0x8124 = true := by decide

theorem test_witness_RejectedWordsAreTheListed :
    decodeWord 0x5121 = .error (.unrecognized 0x5121) ∧ Word.listedUnrecognized (0x5121 : Word).toNat := by
  refine ⟨by decide, .inr (.inl ⟨by decide, by decide⟩)⟩

theorem test_witness_StepRunsDecodedInstruction :
    nextIs (placed 0x200 0x60 0x2A State.reset) (.ldImm 0 0x2A) ∧ nextIs (placed 0xFFE 0x60 0x2A State.reset) (.ldImm 0 0x2A) :=
  ⟨⟨by decide, by decide, by decide⟩, ⟨by decide, by decide, by decide⟩⟩

theorem test_witness_UnrecognizedWordOnlyAdvances :
    let s := placed 0xFFE 0x51 0x21 State.reset
    s.halted = false ∧ s.pc.toNat ≤ 0xFFE ∧
      (0x5121 : Word).toNat = 256 * (s.mem.read s.pc.toNat).toNat + (s.mem.read (s.pc.toNat + 1)).toNat ∧
      Word.listedUnrecognized (0x5121 : Word).toNat :=
  ⟨by decide, by decide, by decide, .inr (.inl ⟨by decide, by decide⟩)⟩

theorem test_witness_FetchIsBigEndianAndBounded :
    ({ State.reset with pc := 0xFFE } : State).pc.toNat ≤ 0xFFE ∧
    (0xFFF ≤ ({ State.reset with pc := 0xFFF } : State).pc.toNat ∧ ({ State.reset with pc := 0xFFF } : State).halted = false) := by
  decide

theorem test_witness_FaultIsPreciseAndAtomic :
    let s := placed 0x200 0x00 0xEE State.reset
    s.halted = false ∧ step s = .next (stepped s) ∧ (stepped s).lastStatus = .fault := ⟨by decide, rfl, by decide⟩

/-- A halted core. -/
def stopped : State := faulted { State.reset with dt := 3 } .stackUnderflow 0

/-- T7 meets the clause on the other operations; LOAD and SET_KEY act on the halted core as well. -/
theorem test_witness_HaltedCoreExecutesNothing :
    stopped.halted = true ∧ HostOp.tick ≠ .init ∧ hostAct .tick stopped = .ok ({ stopped with dt := 2 }, .done) :=
  ⟨by decide, by decide, rfl⟩

theorem test_witness_FaultsComeOnlyFromTheirInstructions :
    exec .ret State.reset = .next (faulted State.reset .stackUnderflow 0) ∧
    exec (.call 0) { State.reset with sp := 16 } = .next (faulted { State.reset with sp := 16 } .stackOverflow 16) ∧
    exec (.drw 0 0 1) (regsI 0x1000 []) = .next (faulted (regsI 0x1000 []) .memReadRange 0x1000) ∧
    exec (.ldB 0) (regsI 0x1000 []) = .next (faulted (regsI 0x1000 []) .memWriteRange 0x1000) ∧
    exec (.storeRegs 0) (regsI 0x4F []) = .next (faulted (regsI 0x4F []) .fontWrite 0x4F) ∧
    exec (.skp 0) (regs [(0, 0x10)]) = .next (faulted (regs [(0, 0x10)]) .keyRange 0x10) := ⟨rfl, rfl, rfl, rfl, rfl, rfl⟩

theorem test_witness_CallPushesReturnAddress :
    ({ State.reset with sp := 15 } : State).sp.val < 16 ∧ ({ State.reset with sp := 16 } : State).sp.val = 16 := by decide

theorem test_witness_ReturnPopsTop :
    0 < ({ State.reset with sp := 1 } : State).sp.val ∧ 0 < ({ State.reset with sp := 16 } : State).sp.val ∧ State.reset.sp.val = 0 := by
  decide

/-- A full nesting: the call that fills the last slot, and a later state with the same stack and another PC. -/
theorem test_witness_CallThenReturnComesBack :
    let s := { State.reset with sp := 15 }
    let t : State := { s with sp := 16, stack := s.stack.set 15 0x202, pc := 0x300 }
    let u : State := { t with pc := 0x310 }
    s.sp.val < 16 ∧ exec (.call 0x300) s = .next t ∧ u.sp = t.sp ∧ u.stack = t.stack := ⟨by decide, rfl, rfl, rfl⟩

theorem test_witness_OnlyTransfersMovePcElsewhere :
    let t := executed State.reset 0xABC
    State.reset.halted = false ∧ exec (.jp 0xABC) State.reset = .next t ∧ t.halted = false ∧ t.pc ≠ State.reset.pc + 2 :=
  ⟨by decide, rfl, by decide, by decide⟩

/-- The premise of LogicOpsResetVf, AddRegistersSetsCarry, SubtractsSetNotBorrow and ShiftsMoveVyAndKeepTheLostBit, with x = F and with
another x under either value of the parameter. -/
theorem test_witness_flagKept :
    flagKept State.reset 15 ∧ flagKept { State.reset with params := { defaultParams with vfAlias := .anyValue } } 14 :=
  ⟨.inr (by decide), .inl (by decide)⟩

theorem test_witness_AnyValueLeavesVfOpen :
    ({ State.reset with params := { defaultParams with vfAlias := .anyValue } } : State).params.vfAlias = .anyValue ∧
    Instr.addReg 15 1 ∈ [.orReg 15 1, .andReg 15 1, .xorReg 15 1, .addReg 15 1, .subReg 15 1, .shrReg 15 1, .subnReg 15 1,
      .shlReg 15 1] := by decide

theorem test_storable_edges : storable State.reset 0x50 ∧ storable State.reset 0xFFF ∧ ¬ storable State.reset 0x4F ∧
    ¬ storable State.reset 0x1000 := by unfold storable; decide

/-- The last block in memory; a block that leaves it at its third byte; one that begins in the font region. -/
theorem test_witness_DecimalDigitsAreStored :
    (∀ k, k < 3 → storable (regsI 0xFFD []) ((regsI 0xFFD []).i.toNat + k)) ∧
    ((∀ j, j < 2 → storable (regsI 0xFFE []) ((regsI 0xFFE []).i.toNat + j)) ∧
      ¬ storable (regsI 0xFFE []) ((regsI 0xFFE []).i.toNat + 2)) ∧
    ¬ storable (regsI 0x4F []) ((regsI 0x4F []).i.toNat + 0) := by unfold storable; decide

theorem test_witness_RegisterBlockIsStored :
    (∀ k, k ≤ (15 : Reg).val → storable (regsI 0xFF0 []) ((regsI 0xFF0 []).i.toNat + k)) ∧
    ((∀ j, j < 15 → storable (regsI 0xFF1 []) ((regsI 0xFF1 []).i.toNat + j)) ∧
      ¬ storable (regsI 0xFF1 []) ((regsI 0xFF1 []).i.toNat + 15)) ∧
    ¬ storable (regsI 0x4F []) ((regsI 0x4F []).i.toNat + 0) := by
  refine ⟨fun k hk => ?_, ⟨fun k hk => ?_, ?_⟩, ?_⟩
  · have h : (regsI 0xFF0 []).i.toNat = 0xFF0 := rfl
    have h15 : (15 : Reg).val = 15 := rfl
    exact ⟨by omega, .inl (by omega)⟩
  · have h : (regsI 0xFF1 []).i.toNat = 0xFF1 := rfl
    exact ⟨by omega, .inl (by omega)⟩
  · unfold storable; decide
  · unfold storable; decide

theorem test_witness_RegisterBlockIsLoaded :
    (regsI 0xFF0 []).i.toNat + (15 : Reg).val < 4096 ∧ 4096 ≤ (regsI 0xFF1 []).i.toNat + (15 : Reg).val := by decide

theorem test_witness_StoreThenLoadRestores :
    let s := regsI 0xFFE [(0, 0x11), (1, 0x22)]
    let t : State := { executed s 0x202 with mem := [(0xFFE, 0x11), (0xFFF, 0x22)], i := 0x1000 }
    let u : State := { t with i := 0xFFE, pc := 0x206 }
    s.halted = false ∧ exec (.storeRegs 1) s = .next t ∧ t.halted = false ∧ u.mem = t.mem ∧ u.i = s.i :=
  ⟨by decide, rfl, by decide, rfl, rfl⟩

/-- A program that writes `1234` over the word after the store. -/
theorem test_witness_StoredWordIsFetchedNext :
    let s := regsI 0x202 [(0, 0x12), (1, 0x34)]
    let t : State := { executed s 0x202 with mem := [(0x202, 0x12), (0x203, 0x34)], i := 0x204 }
    s.halted = false ∧ exec (.storeRegs 1) s = .next t ∧ t.halted = false ∧ s.i = s.pc + 2 ∧ s.pc.toNat + 3 < 4096 ∧
      s.v[(0 : Reg)] = highByte (encode (.jp 0x234)) ∧ s.v[(1 : Reg)] = lowByte (encode (.jp 0x234)) :=
  ⟨by decide, rfl, by decide, by decide, by decide, by decide, by decide⟩

/-- No row drawn with I outside memory (D11); a draw whose last row is the last byte of memory; the same with the rows clipped (D10). -/
theorem test_witness_DrawInvertsCoveredPixels :
    rowsDrawn (regsI 0xFFFF []) 1 0 = 0 ∧ (regsI 0xFF1 []).i.toNat + rowsDrawn (regsI 0xFF1 []) 1 15 ≤ 4096 ∧
    (regsI 0xFFF [(1, 31)]).i.toNat + rowsDrawn (regsI 0xFFF [(1, 31)]) 1 2 ≤ 4096 := by decide

/-- D9. -/
theorem test_witness_DrawBeyondMemoryFaults :
    rowsDrawn (regsI 0xFFF []) 1 2 ≠ 0 ∧ 4096 < (regsI 0xFFF []).i.toNat + rowsDrawn (regsI 0xFFF []) 1 2 := by decide

theorem test_witness_RowWordFormAgreesWithPixels : 63 < 64 ∧ drawRow 0xFF 63 (1, false) = (0, true) ∧
    drawRowWord 0xFF 63 (1, false) = (0, true) := by decide

/-- The state after `D011` of the byte 80 at the origin. -/
def drawn : State :=
  { executed (regsI 0x300 []) 0x202 with
    mem := [(0x300, 0x80)], fb := (Vector.replicate 32 0).set 0 0x8000000000000000, drawFlag := true }

/-- The first draw of DrawTwiceRestoresTheScreen, and a draw of CollisionMeansAPixelWentOff. -/
theorem test_witness_DrawTwiceRestoresTheScreen :
    let s := withBytes 0x300 [0x80] (regsI 0x300 [])
    s.halted = false ∧ (0 : Reg) ≠ 15 ∧ (1 : Reg) ≠ 15 ∧ exec (.drw 0 1 1) s = .next drawn ∧ drawn.halted = false :=
  ⟨by decide, by decide, by decide, rfl, by decide⟩

/-- A draw with a collision, its origin in VF. -/
theorem test_witness_CollisionMeansAPixelWentOff :
    let t : State := { executed drawn 0x204 with v := drawn.v.set 15 1, fb := Vector.replicate 32 0 }
    drawn.halted = false ∧ exec (.drw 15 15 1) drawn = .next t ∧ t.halted = false ∧
      drawn.pixel 0 0 = true ∧ t.pixel 0 0 = false := ⟨by decide, rfl, by decide, by decide, by decide⟩

/-- A screen instruction, one that changes no pixel and sets the flag, and one that touches no screen. -/
theorem test_witness_OnlyDisplayTouchesTheScreen :
    exec .cls State.reset = .next { executed State.reset 0x202 with drawFlag := true } ∧
    drawn.halted = false ∧ exec .cls drawn = .next { executed drawn 0x204 with fb := Vector.replicate 32 0 } ∧
      exec (.jp 0x300) drawn = .next (executed drawn 0x300) := ⟨rfl, by decide, rfl, rfl⟩

theorem test_witness_KeySkipsReadTheLevel :
    (regs [(5, 15)]).v[(5 : Reg)].toNat = (15 : Key).val ∧ 15 < (regs [(5, 16)]).v[(5 : Reg)].toNat := by decide

/-- Entry from Idle and from a wait at another address; a poll with no release; a poll with two. -/
theorem test_witness_KeyWaitEntersPollsAndResolves :
    State.reset.waitState = .idle ∧ ({ waitingOn [] with pc := 0x202 } : State).waitAddr ≠ 0x202 ∧
    ((waitingOn []).waitState = .waiting ∧ (waitingOn []).waitAddr = (waitingOn []).pc ∧ ∀ k : Key, ¬ released (waitingOn []) k) ∧
    (released (waitingOn [15, 5]) 5 ∧ ∀ j : Key, j < 5 → ¬ released (waitingOn [15, 5]) j) ∧
    (released (waitingOn [15]) 15 ∧ ∀ j : Key, j < 15 → ¬ released (waitingOn [15]) j) := by unfold released; decide

/-- A wait not entered; one entered at another address; one under way. -/
theorem test_witness_WaitWithoutKeyChangeStays :
    (nextIs (placed 0x200 0xF5 0x0A State.reset) (.ldVK 5) ∧ (placed 0x200 0xF5 0x0A State.reset).waitState = .idle) ∧
    (nextIs (placed 0x300 0xF5 0x0A (waitingOn [3])) (.ldVK 5) ∧ (placed 0x300 0xF5 0x0A (waitingOn [3])).waitAddr ≠ 0x300) ∧
    (nextIs (placed 0x200 0xF5 0x0A (waitingOn [])) (.ldVK 5) ∧ ∀ k : Key, ¬ released (placed 0x200 0xF5 0x0A (waitingOn [])) k) :=
  ⟨⟨⟨by decide, by decide, by decide⟩, by decide⟩, ⟨⟨by decide, by decide, by decide⟩, by decide⟩,
    ⟨by decide, by decide, by decide⟩, by unfold released; decide⟩

theorem test_witness_PressThenReleaseResolvesTheWait :
    let s := placed 0x300 0xF5 0x0A State.reset
    nextIs s (.ldVK 5) ∧ s.waitState = .idle ∧ ∀ j : Key, s.keys[j] = false :=
  ⟨⟨by decide, by decide, by decide⟩, by decide, by decide⟩

/-- A step that sets DT and one that sets ST. -/
theorem test_witness_StepsLeaveKeysAndTimersAlone :
    let s := placed 0x200 0xF3 0x15 (regs [(3, 9)])
    let u := placed 0x200 0xF3 0x18 (regs [(3, 9)])
    step s = .next (stepped s) ∧ (stepped s).dt ≠ s.dt ∧ step u = .next (stepped u) ∧ (stepped u).st ≠ u.st :=
  ⟨rfl, by decide, rfl, by decide⟩

/-- A store that changes memory, a call that changes the stack, an index write, and two writes of VF. -/
theorem test_witness_whole_machine_rules :
    exec (.storeRegs 0) (regsI 0x300 [(0, 1)]) =
      .next { executed (regsI 0x300 [(0, 1)]) 0x202 with mem := [(0x300, 1)], i := 0x301 } ∧
    exec (.call 0x300) State.reset =
      .next { executed State.reset 0x300 with sp := 1, stack := (Vector.replicate 16 0).set 0 0x202 } ∧
    (exec (.ldI 0x300) State.reset = .next { executed State.reset 0x202 with i := 0x300 } ∧ (0x300 : Word) ≠ State.reset.i) ∧
    (exec (.ldImm 15 7) State.reset = .next { executed State.reset 0x202 with v := State.reset.v.set 15 7 } ∧
      (State.reset.v.set 15 7)[(15 : Reg)] ≠ State.reset.v[(15 : Reg)]) ∧
    (exec (.addReg 0 1) (regs [(0, 255), (1, 1)]) =
        .next { executed (regs [(0, 255), (1, 1)]) 0x202 with v := ((regs [(0, 255), (1, 1)]).v.set 0 0).set 15 1 } ∧
      (((regs [(0, 255), (1, 1)]).v.set 0 0).set 15 1)[(15 : Reg)] ≠ (regs [(0, 255), (1, 1)]).v[(15 : Reg)]) :=
  ⟨rfl, rfl, ⟨rfl, by decide⟩, ⟨rfl, by decide⟩, ⟨rfl, by decide⟩⟩

/-- The spec's default and its other value; a program at the bound and one past it. -/
theorem test_witness_LoadCopiesAllOrNothing :
    State.reset.params.maxProgramLen ≤ 0xDFE ∧ (List.replicate 0xBFF (0 : Byte)).length ≤ State.reset.params.maxProgramLen ∧
    State.reset.params.maxProgramLen < (List.replicate 0xC00 (0 : Byte)).length := by
  refine ⟨by decide, ?_, ?_⟩
  · rw [List.length_replicate]; decide
  · rw [List.length_replicate]; decide

theorem test_witness_HostInputsTouchOneThing : 16 ≤ 16 ∧ hostAct (.setKey 16 true) State.reset = .error (.keyNumberOutOfRange 16) :=
  ⟨by decide, rfl⟩

/-- A core that waits for a key at 0x300, called from 0x204: it meets the invariant. -/
def waitingCall : State :=
  { placed 0x300 0xF5 0x0A State.reset with
    sp := 1, stack := State.reset.stack.set 0 0x206, waitState := .waiting, waitAddr := 0x300 }

theorem test_waitingCall_inv : waitingCall.Inv where
  memory_wf := by decide
  font := fun _ => by unfold State.fontIntact; decide
  waiting := fun _ => rfl
  pc_bound := by decide
  stack_bound := by decide
  latch_status := by decide
  latch_code := by decide
  latch_info := fun _ => rfl

theorem test_witness_StepKeepsTheInvariant : waitingCall.Inv ∧ step waitingCall = .next (stepped waitingCall) :=
  ⟨test_waitingCall_inv, rfl⟩

theorem test_witness_HostRunsKeepTheInvariant :
    waitingCall.Inv ∧ hostRun [.tick, .step] waitingCall = .ok (stepped waitingCall.tick) := ⟨test_waitingCall_inv, rfl⟩

theorem test_witness_RunningCoreAlwaysSteps : ({ State.reset with pc := 0xFFF } : State).halted = false := by decide

end Sys2Proof.Tests
end

section
/-! The opcode map against the decoder (30_encoding.md R67 to R69). The map has four masks, and under each of them meeting a row
says that the fields the decoder dispatches on are the row's own: so a met row and the decoded instruction decide each other. -/

namespace Sys2Proof.Laws.OpcodeMap

open Sys2Proof.Laws.EncodingMeetsRow

variable {w : Word} {i : Instr}

/-! ### A word is assembled from its fields (R63) -/

theorem wordOfNibbles_fields (w : Word) : wordOfNibbles (opClass w) (nibbleX w) (nibbleY w) (nibbleN w) = w := by
  apply BitVec.eq_of_toNat_eq
  rw [wordOfNibbles_toNat, opClass_toNat, nibbleX_toNat, nibbleY_toNat, nibbleN_toNat]; omega

theorem wordOfXKK_fields (w : Word) : wordOfXKK (opClass w) (nibbleX w) (fieldKK w) = w := by
  apply BitVec.eq_of_toNat_eq
  rw [wordOfXKK_toNat, opClass_toNat, nibbleX_toNat, fieldKK_toNat]; omega

theorem wordOfNNN_fields (w : Word) : wordOfNNN (opClass w) (fieldNNN w) = w := by
  apply BitVec.eq_of_toNat_eq
  rw [wordOfNNN_toNat, opClass_toNat, fieldNNN_toNat]; omega

/-! ### The four masks of R69 keep the fields of the dispatch -/

theorem mask_opClass (w : Word) : w &&& 0xF000 = wordOfNibbles (opClass w) 0 0 0 := by
  conv_lhs => rw [← wordOfNibbles_fields w, nibbles_mask_class]

theorem mask_nibbleN (w : Word) : w &&& 0xF00F = wordOfNibbles (opClass w) 0 0 (nibbleN w) := by
  conv_lhs => rw [← wordOfNibbles_fields w, nibbles_mask_n]

theorem mask_fieldKK (w : Word) : w &&& 0xF0FF = wordOfXKK (opClass w) 0 (fieldKK w) := by
  conv_lhs => rw [← wordOfXKK_fields w, xkk_mask_kk]

theorem mask_fieldNNN (w : Word) : w &&& 0xFFFF = wordOfNNN (opClass w) (fieldNNN w) :=
  (BitVec.and_allOnes (x := w)).trans (wordOfNNN_fields w).symm

/-- A match that lies under its mask is met by the words that agree with it there. -/
theorem meets_iff_masked {m : String} {mask p : Word} (hp : p &&& mask = p) :
    OpcodeRow.meets ⟨m, mask, p⟩ w = true ↔ w &&& mask = p &&& mask := by
  rw [OpcodeRow.meets, beq_iff_eq, hp]

theorem meets_iff_opClass {m : String} {p : Word} (hp : p &&& 0xF000 = p) :
    OpcodeRow.meets ⟨m, 0xF000, p⟩ w = true ↔ opClass w = opClass p := by
  rw [meets_iff_masked hp, mask_opClass, mask_opClass]
  exact ⟨fun h => by simpa using congrArg opClass h, fun hc => by rw [hc]⟩

theorem meets_iff_nibbleN {m : String} {p : Word} (hp : p &&& 0xF00F = p) :
    OpcodeRow.meets ⟨m, 0xF00F, p⟩ w = true ↔ opClass w = opClass p ∧ nibbleN w = nibbleN p := by
  rw [meets_iff_masked hp, mask_nibbleN, mask_nibbleN]
  exact ⟨fun h => ⟨by simpa using congrArg opClass h, by simpa using congrArg nibbleN h⟩, fun ⟨hc, hn⟩ => by rw [hc, hn]⟩

theorem meets_iff_fieldKK {m : String} {p : Word} (hp : p &&& 0xF0FF = p) :
    OpcodeRow.meets ⟨m, 0xF0FF, p⟩ w = true ↔ opClass w = opClass p ∧ fieldKK w = fieldKK p := by
  rw [meets_iff_masked hp, mask_fieldKK, mask_fieldKK]
  exact ⟨fun h => ⟨by simpa using congrArg opClass h, by simpa using congrArg fieldKK h⟩, fun ⟨hc, hk⟩ => by rw [hc, hk]⟩

theorem meets_iff_fieldNNN {m : String} {p : Word} (hp : p &&& 0xFFFF = p) :
    OpcodeRow.meets ⟨m, 0xFFFF, p⟩ w = true ↔ opClass w = opClass p ∧ fieldNNN w = fieldNNN p := by
  rw [meets_iff_masked hp, mask_fieldNNN, mask_fieldNNN]
  exact ⟨fun h => ⟨by simpa using congrArg opClass h, by simpa using congrArg fieldNNN h⟩, fun ⟨hc, ha⟩ => by rw [hc, ha]⟩

/-! ### The decoder and the rows -/

/-- The cases are the branches of the primary dispatch (R67), grouped by the mask of their rows: class 0, the classes 5, 8 and 9,
the classes E and F, and the ten classes without a secondary dispatch (R68). -/
theorem row_meets_of_decodeWord (h : decodeWord w = .ok i) : i.row.meets w = true := by
  unfold decodeWord decodeClass0 decodeClass5 decodeClass8 decodeClass9 decodeClassE decodeClassF at h
  split at h
  case h_1 hc => split at h <;> cases h <;> exact (meets_iff_fieldNNN (by decide)).mpr ⟨hc, ‹_›⟩
  case h_6 hc | h_9 hc | h_10 hc => split at h <;> cases h <;> exact (meets_iff_nibbleN (by decide)).mpr ⟨hc, ‹_›⟩
  case h_15 hc | h_16 hc => split at h <;> cases h <;> exact (meets_iff_fieldKK (by decide)).mpr ⟨hc, ‹_›⟩
  all_goals cases h <;> exact (meets_iff_opClass (by decide)).mpr ‹_›

/-- The converse, with the instructions grouped by the mask of their rows: the row's fields select the decoder's branch. -/
theorem exists_decodeWord_of_row_meets (h : i.row.meets w = true) : ∃ j, decodeWord w = .ok j ∧ j.row = i.row := by
  cases i with
  | cls | ret =>
    obtain ⟨hc, ha⟩ := (meets_iff_fieldNNN (by decide)).mp h
    rw [decodeWord, decodeClass0, hc, ha]
    exact ⟨_, rfl, rfl⟩
  | seReg | ldReg | orReg | andReg | xorReg | addReg | subReg | shrReg | subnReg | shlReg | sneReg =>
    obtain ⟨hc, hn⟩ := (meets_iff_nibbleN (by decide)).mp h
    rw [decodeWord, decodeClass5, decodeClass8, decodeClass9, hc, hn]
    exact ⟨_, rfl, rfl⟩
  | skp | sknp | ldVDt | ldVK | ldDtV | ldStV | addI | ldF | ldB | storeRegs | loadRegs =>
    obtain ⟨hc, hk⟩ := (meets_iff_fieldKK (by decide)).mp h
    rw [decodeWord, decodeClassE, decodeClassF, hc, hk]
    exact ⟨_, rfl, rfl⟩
  | jp | call | seImm | sneImm | ldImm | addImm | ldI | jpV0 | rnd | drw =>
    have hc := (meets_iff_opClass (by decide)).mp h
    rw [decodeWord, hc]
    exact ⟨_, rfl, rfl⟩

theorem exists_decodeWord_of_meets {r : OpcodeRow} (hr : r ∈ opcodeRows) (h : r.meets w = true) :
    ∃ i, decodeWord w = .ok i ∧ i.row = r := by
  obtain ⟨i, -, rfl⟩ := List.mem_map.mp hr
  exact exists_decodeWord_of_row_meets h

/-- Two rows do not overlap because a word decodes to one instruction, which has one row. -/
theorem opcodeRows_disjoint {r r' : OpcodeRow} (hr : r ∈ opcodeRows) (hr' : r' ∈ opcodeRows)
    (h : r.meets w = true) (h' : r'.meets w = true) : r = r' := by
  obtain ⟨i, hi, rfl⟩ := exists_decodeWord_of_meets hr h
  obtain ⟨i', hi', rfl⟩ := exists_decodeWord_of_meets hr' h'
  rw [Except.ok.inj (hi.symm.trans hi')]

/-- Settles O4: a met row and the decoded instruction decide each other, and the decoder is a function. -/
theorem decodeFollowsOpcodeMap : Obligations.DecodeFollowsOpcodeMap := fun _ =>
  ⟨fun _ hr _ hr' => opcodeRows_disjoint hr hr', fun _ => exists_decodeWord_of_meets, fun _ => row_meets_of_decodeWord⟩

end Sys2Proof.Laws.OpcodeMap
end

section
/-! Control flow (40_control_flow.md): the instructions that give PC a value and touch nothing else. -/

namespace Sys2Proof.Laws.ControlFlow

open Sys2Proof Sys2Proof.Machine Sys2Proof.Spec

/-- Settles O13: the machine's zero-extended operand is the statement's number of the same value. -/
theorem jumpSetsPc : Obligations.JumpSetsPc := by
  intro nnn s
  rw [BitVec.ofNat_toNat]
  rfl

/-- What the four skips share: on the advanced PC, a skip under the condition `p` moves PC by two or by four (R81 to R84). -/
theorem retire_skipIf_begin {c : Bool} {p : Prop} [Decidable p] (hc : c = true ↔ p) (s : State) :
    retire (s.begin.skipIf c) = .next (executed s (if p then s.pc + 4 else s.pc + 2)) := by
  rw [State.begin_skipIf, retire_eq, executed, if_congr hc rfl rfl]

/-- Settles O18: each of the four is a skip under its own comparison. -/
theorem skipsMoveByTwoOrFour : Obligations.SkipsMoveByTwoOrFour := fun _ _ _ s =>
  ⟨retire_skipIf_begin beq_iff_eq s, retire_skipIf_begin bne_iff_ne s,
    retire_skipIf_begin beq_iff_eq s, retire_skipIf_begin bne_iff_ne s⟩

end Sys2Proof.Laws.ControlFlow
end

section
/-! Register loads and ALU (41_alu.md): a write of one register, and `WriteRF` where VF follows its flag (30_encoding.md R73). Each
instruction is one of the two with its own result and flag. -/

namespace Sys2Proof.Laws.Alu

open Sys2Proof Sys2Proof.Machine Sys2Proof.Spec

variable {s : State} {x : Reg} {r : Byte} {f : Bool}

/-- What the instructions that write one register and no flag share (R87 to R89). -/
theorem retire_begin_writeV (s : State) (x : Reg) (r : Byte) :
    retire (s.begin.writeV x r) = .next { executed s (s.pc + 2) with v := s.v.set x r } := rfl

/-- What the flag-writing instructions share: the result, then the flag (R100). -/
theorem retire_begin_writeRF (h : flagKept s x) :
    retire (s.begin.writeRF x r f) =
      .next { executed s (s.pc + 2) with v := (s.v.set x r).set 15 (flagByte f) } := by
  rw [State.writeRF_flag s.begin x r f h]; rfl

/-- The same, with the result and the flag read as numbers. -/
theorem retire_begin_writeRF_withFlag {n : Nat} {p : Prop} [Decidable p] (h : flagKept s x)
    (hr : r.toNat = n % 256) (hf : f = decide p) :
    retire (s.begin.writeRF x r f) = .next { executed s (s.pc + 2) with v := withFlag s x n p } := by
  have hn : r = BitVec.ofNat 8 n := BitVec.eq_of_toNat_eq hr
  rw [retire_begin_writeRF h, hn, hf, flagByte_decide, withFlag]

/-- Settles O20: both write one register. -/
theorem loadsWriteOneRegister : Obligations.LoadsWriteOneRegister := fun x y kk s =>
  ⟨retire_begin_writeV s x kk, retire_begin_writeV s x s.v[y]⟩

/-- Settles O21: one register is written, with the wrapped sum. -/
theorem addImmediateWraps : Obligations.AddImmediateWraps := by
  intro x kk s
  refine ⟨_, retire_begin_writeV s x (sumByte s.v[x] kk), ?_, fun q hq => State.readV_writeV_other s x q _ hq, rfl⟩
  exact (congrArg BitVec.toNat (State.readV_writeV_same s x _)).trans (sumByte_toNat _ _)

/-- Settles O22: the flag written after the result is 0. -/
theorem logicOpsResetVf : Obligations.LogicOpsResetVf := fun _ _ _ h =>
  ⟨retire_begin_writeRF h, retire_begin_writeRF h, retire_begin_writeRF h⟩

/-- Settles O23: the machine's byte is the sum modulo 256. -/
theorem addRegistersSetsCarry : Obligations.AddRegistersSetsCarry := by
  intro x y s h
  have hsum : (sumByte s.v[x] s.v[y]).toNat = (s.v[x].toNat + s.v[y].toNat) % 256 % 256 := by
    rw [sumByte_toNat, Nat.mod_mod]
  exact retire_begin_writeRF_withFlag h hsum rfl

/-- Settles O24: the two differ in the order of the operands. -/
theorem subtractsSetNotBorrow : Obligations.SubtractsSetNotBorrow := fun _ _ _ h =>
  ⟨retire_begin_writeRF_withFlag h (diffByte_toNat _ _) rfl, retire_begin_writeRF_withFlag h (diffByte_toNat _ _) rfl⟩

/-- Settles O25: half of a byte is a byte, and the bit shifted out is the parity or the upper half. -/
theorem shiftsMoveVyAndKeepTheLostBit : Obligations.ShiftsMoveVyAndKeepTheLostBit := by
  intro x y s h
  have hhalf : (shiftRightByte s.v[y]).toNat = s.v[y].toNat / 2 % 256 := by
    rw [shiftRightByte_toNat]; have := s.v[y].isLt; omega
  have hdouble : (shiftLeftByte s.v[y]).toNat = 2 * s.v[y].toNat % 256 % 256 := by
    rw [shiftLeftByte_toNat, Nat.mod_mod]
  exact ⟨retire_begin_writeRF_withFlag h hhalf (bit0Flag_iff _), retire_begin_writeRF_withFlag h hdouble (bit7Flag_iff _)⟩

end Sys2Proof.Laws.Alu
end

section
/-! Display (43_display.md): the blank frame of `00E0`. -/

namespace Sys2Proof.Laws.Screen

open Sys2Proof Sys2Proof.Machine Sys2Proof.Spec

/-- Every row word of the blank frame is 0, so no pixel bit of it is set (R24). -/
theorem pixel_of_fb_eq_blankFrame {t : State} (h : t.fb = blankFrame) (r : Fin 32) (c : Fin 64) : t.pixel r c = false := by
  have hrow : t.fb[r] = 0#64 := by rw [h]; exact Vector.getElem_replicate r.isLt
  rw [State.pixel, rowPixel, hrow, BitVec.getLsbD_zero]

theorem exec_cls (s : State) :
    exec .cls s = .next { executed s (s.pc + 2) with fb := blankFrame, drawFlag := true } := rfl

/-- Settles O35: the frame left by `00E0` is the blank one. -/
theorem clearBlanksEveryPixel : Obligations.ClearBlanksEveryPixel := fun s =>
  ⟨_, exec_cls s, pixel_of_fb_eq_blankFrame rfl, rfl⟩

end Sys2Proof.Laws.Screen
end

section
/-! Timer access (44_input_timers.md R118 to R120): the read is a write of one register, each set a write of one timer. -/

namespace Sys2Proof.Laws.Timers

open Sys2Proof Sys2Proof.Machine Sys2Proof.Spec

theorem exec_ldVDt (x : Reg) (s : State) :
    exec (.ldVDt x) s = .next { executed s (s.pc + 2) with v := s.v.set x s.dt } :=
  Alu.retire_begin_writeV s x s.dt

theorem exec_ldDtV (x : Reg) (s : State) :
    exec (.ldDtV x) s = .next { executed s (s.pc + 2) with dt := s.v[x] } := rfl

theorem exec_ldStV (x : Reg) (s : State) :
    exec (.ldStV x) s = .next { executed s (s.pc + 2) with st := s.v[x] } := rfl

/-- Settles O46: the three instructions, each by its own equation. -/
theorem timerAccessIsExact : Obligations.TimerAccessIsExact := fun x s =>
  ⟨exec_ldVDt x s, exec_ldDtV x s, exec_ldStV x s⟩

end Sys2Proof.Laws.Timers
end

section
/-! Reset (70_reset_and_hazards.md R139): the state every program starts in. -/

namespace Sys2Proof.Laws.Reset

open Sys2Proof Sys2Proof.Machine

/-- Every general register is 0 after reset (R139). -/
@[simp] theorem reset_v_getElem (r : Reg) : State.reset.v[r] = 0 := Vector.getElem_replicate r.isLt

/-- Settles O56: PC, SP and I are fields of the reset state, and the register file is 0 in every place. -/
theorem resetStartsAtProgramBase : Obligations.ResetStartsAtProgramBase :=
  ⟨rfl, rfl, reset_v_getElem, rfl⟩

end Sys2Proof.Laws.Reset
end

section
/-! The decoder against the encoder (30_encoding.md R69) and against the list of unrecognized words (R70). A word is assembled from
its fields in one of three layouts; the decoder dispatches on the fields, and the encoder assembles them. -/

namespace Sys2Proof.Laws.RoundTrip

open Sys2Proof.Laws.OpcodeMap

variable {w : Word}

/-! ### Operand fields of assembled words (R63) -/

@[simp] theorem fieldX_wordOfXKK (c : BitVec 4) (x : Reg) (kk : Byte) : fieldX (wordOfXKK c (nibble x) kk) = x := by
  rw [fieldX, nibbleX_wordOfXKK, nibble_toFin]

@[simp] theorem fieldX_wordOfNibbles (c : BitVec 4) (x : Reg) (y n : BitVec 4) : fieldX (wordOfNibbles c (nibble x) y n) = x := by
  rw [fieldX, nibbleX_wordOfNibbles, nibble_toFin]

@[simp] theorem fieldY_wordOfNibbles (c x : BitVec 4) (y : Reg) (n : BitVec 4) : fieldY (wordOfNibbles c x (nibble y) n) = y := by
  rw [fieldY, nibbleY_wordOfNibbles, nibble_toFin]

@[simp] theorem fieldN_wordOfNibbles (c x y : BitVec 4) (n : Height) : fieldN (wordOfNibbles c x y (nibble n)) = n := by
  rw [fieldN, nibbleN_wordOfNibbles, nibble_toFin]

/-! ### Decoding an encoded word -/

/-- The cases are the layouts of the words: in each, the simp lemmas about the fields select the decoder's branch. -/
theorem decodeWord_encode (i : Instr) : decodeWord (encode i) = .ok i := by
  cases i with
  | cls | ret => rfl
  | jp | call | ldI | jpV0 => simp [encode, decodeWord]
  | seImm | sneImm | ldImm | addImm | rnd => simp [encode, decodeWord]
  | skp | sknp => simp [encode, decodeWord, decodeClassE]
  | ldVDt | ldVK | ldDtV | ldStV | addI | ldF | ldB | storeRegs | loadRegs => simp [encode, decodeWord, decodeClassF]
  | seReg => simp [encode, decodeWord, decodeClass5]
  | sneReg => simp [encode, decodeWord, decodeClass9]
  | drw => simp [encode, decodeWord]
  | ldReg | orReg | andReg | xorReg | addReg | subReg | shrReg | subnReg | shlReg => simp [encode, decodeWord, decodeClass8]

theorem decodeBytes_bytes (w : Word) : decodeBytes [highByte w, lowByte w] = decodeWord w :=
  congrArg decodeWord (wordOfBytes_bytes w)

theorem decodeBytes_encodeBytes (i : Instr) : decodeBytes (encodeBytes i) = .ok i :=
  (decodeBytes_bytes _).trans (decodeWord_encode i)

theorem decodeTableWord_encode (i : Instr) : decodeTableWord 16 (encode i).toNat = some i := by
  rw [decodeTableWord, tableWord_toNat, decodeBytes_bytes, decodeWord_encode]

/-- Settles O2: the bytes and the table number hold the encoded word, and its fields decode to the operands they were made from. -/
theorem decodeOfEncode : Obligations.DecodeOfEncode := fun i =>
  ⟨decodeWord_encode i, decodeBytes_encodeBytes i, decodeTableWord_encode i⟩

/-! ### Encoding a decoded word -/

theorem wordOfNibbles_eq {c n : BitVec 4} (hc : opClass w = c) (hn : nibbleN w = n) :
    wordOfNibbles c (nibble (fieldX w)) (nibble (fieldY w)) n = w := by
  subst hc hn; exact wordOfNibbles_fields w

theorem wordOfXKK_eq {c : BitVec 4} {kk : Byte} (hc : opClass w = c) (hk : fieldKK w = kk) :
    wordOfXKK c (nibble (fieldX w)) kk = w := by
  subst hc hk; exact wordOfXKK_fields w

theorem wordOfNNN_eq {c : BitVec 4} {nnn : Addr12} (hc : opClass w = c) (ha : fieldNNN w = nnn) : wordOfNNN c nnn = w := by
  subst hc ha; exact wordOfNNN_fields w

/-- The cases are the decoder's branches (R67, R68), grouped by the layout of their words. -/
theorem encode_of_decodeWord {i : Instr} (h : decodeWord w = .ok i) : encode i = w := by
  unfold decodeWord decodeClass0 decodeClass5 decodeClass8 decodeClass9 decodeClassE decodeClassF at h
  split at h
  case h_1 hc => split at h <;> cases h <;> exact wordOfNNN_eq hc ‹_›
  case h_2 hc | h_3 hc | h_11 hc | h_12 hc => cases h; exact wordOfNNN_eq hc rfl
  case h_4 hc | h_5 hc | h_7 hc | h_8 hc | h_13 hc => cases h; exact wordOfXKK_eq hc rfl
  case h_6 hc | h_9 hc | h_10 hc => split at h <;> cases h <;> exact wordOfNibbles_eq hc ‹_›
  case h_14 hc => cases h; exact wordOfNibbles_eq hc rfl
  case h_15 hc | h_16 hc => split at h <;> cases h <;> exact wordOfXKK_eq hc ‹_›
  case h_17 => cases h

/-- Settles O3: the decoder's branch fixes the fields the instruction does not hold as operands. -/
theorem encodeOfDecode : Obligations.EncodeOfDecode := fun _ _ => encode_of_decodeWord

/-- Settles O1: the decoder evaluates each word. -/
theorem specWordsDecode : Obligations.SpecWordsDecode := by
  unfold Obligations.SpecWordsDecode; decide

end Sys2Proof.Laws.RoundTrip
end

section
/-! The words the decoder rejects (30_encoding.md R70): in each class, those whose sub-code no branch of the secondary dispatch takes,
read as numbers. -/

namespace Sys2Proof.Laws.Rejection

variable {w : Word}

/-- What the decoder, or its dispatch in one class, answers for a word it rejects. -/
def Rejects (r : Except DecodeReject Instr) (w : Word) : Prop := r = .error (.unrecognized w)

theorem rejects_error : Rejects (.error (.unrecognized w)) w := rfl

theorem not_rejects_ok {i : Instr} : ¬ Rejects (.ok i) w := nofun

/-! A branch that answers an instruction fixes the sub-code; in the last branch the sub-code is none of these. -/

theorem rejects_class0 : Rejects (decodeClass0 w) w ↔ w.toNat % 4096 ≠ 0x0E0 ∧ w.toNat % 4096 ≠ 0x0EE := by
  rw [← fieldNNN_toNat]
  unfold decodeClass0
  split <;> simp_all [rejects_error, not_rejects_ok, BitVec.toNat_eq]

theorem rejects_class5 : Rejects (decodeClass5 w) w ↔ w.toNat % 16 ≠ 0 := by
  rw [← nibbleN_toNat]
  unfold decodeClass5
  split <;> simp_all [rejects_error, not_rejects_ok, BitVec.toNat_eq]

theorem rejects_class8 : Rejects (decodeClass8 w) w ↔ w.toNat % 16 ∈ unusedClass8 := by
  rw [← nibbleN_toNat]
  have := (nibbleN w).isLt
  unfold decodeClass8
  split <;> simp_all [rejects_error, not_rejects_ok, BitVec.toNat_eq, unusedClass8]
  omega

theorem rejects_class9 : Rejects (decodeClass9 w) w ↔ w.toNat % 16 ≠ 0 := by
  rw [← nibbleN_toNat]
  unfold decodeClass9
  split <;> simp_all [rejects_error, not_rejects_ok, BitVec.toNat_eq]

theorem rejects_classE : Rejects (decodeClassE w) w ↔ w.toNat % 256 ∉ usedClassE := by
  rw [← fieldKK_toNat]
  unfold decodeClassE
  split <;> simp_all [rejects_error, not_rejects_ok, BitVec.toNat_eq, usedClassE]

theorem rejects_classF : Rejects (decodeClassF w) w ↔ w.toNat % 256 ∉ usedClassF := by
  rw [← fieldKK_toNat]
  unfold decodeClassF
  split <;> simp_all [rejects_error, not_rejects_ok, BitVec.toNat_eq, usedClassF]

/-- The cases are the branches of the primary dispatch (R67): each fixes the class, and so the clause of the list.
The last branch stands for no value of four bits. -/
theorem rejects_decodeWord : Rejects (decodeWord w) w ↔ Word.listedUnrecognized w.toNat := by
  have hclass := opClass_toNat w
  unfold decodeWord Word.listedUnrecognized
  split
  case h_1 hc =>
    have hzero : w.toNat / 4096 = 0 := hclass.symm.trans (congrArg BitVec.toNat hc)
    rw [rejects_class0]; omega
  case h_6 hc | h_9 hc | h_10 hc | h_15 hc | h_16 hc =>
    simp [← hclass, hc, rejects_class5, rejects_class8, rejects_class9, rejects_classE, rejects_classF]
  case h_17 =>
    have := (opClass w).isLt
    exfalso; simp_all [BitVec.toNat_eq]; omega
  all_goals simp [← hclass, *, not_rejects_ok]

/-- Settles O5: class by class, the sub-codes without a branch are the listed ones. -/
theorem rejectedWordsAreTheListed : Obligations.RejectedWordsAreTheListed := fun _ => rejects_decodeWord

end Sys2Proof.Laws.Rejection
end

section
/-! Control flow (40_control_flow.md): the jump with V0, and the two instructions of the return stack. -/

namespace Sys2Proof.Laws.ControlFlow

open Sys2Proof Sys2Proof.Machine Sys2Proof.Spec

variable {s : State} {nnn : Addr12}

@[simp] theorem zextAddr_toNat (a : Addr12) : (zextAddr a).toNat = a.toNat :=
  BitVec.toNat_setWidth_of_le (by decide)

@[simp] theorem zextByte_toNat (b : Byte) : (zextByte b).toNat = b.toNat :=
  BitVec.toNat_setWidth_of_le (by decide)

/-- Where two bytes can be fetched, PC moved past them, or past the next two as well, does not wrap. -/
theorem pc_add_toNat {pc : Word} (h : pc.toNat ≤ 0xFFE) {n : Nat} (hn : n ≤ 4) :
    (pc + BitVec.ofNat 16 n).toNat = pc.toNat + n := by
  rw [BitVec.toNat_add, BitVec.toNat_ofNat]; omega

/-! ### The jump with V0 (R85) -/

theorem exec_jpV0 (nnn : Addr12) (s : State) :
    exec (.jpV0 nnn) s = .next (executed s (zextAddr nnn + zextByte s.v[(0 : Reg)])) := rfl

/-- 12 bits and 8 bits have a sum of 16 bits. -/
theorem jpV0_target_toNat (nnn : Addr12) (b : Byte) : (zextAddr nnn + zextByte b).toNat = nnn.toNat + b.toNat := by
  rw [BitVec.toNat_add, zextAddr_toNat, zextByte_toNat]
  have := nnn.isLt; have := b.isLt; omega

/-- Settles O14: the sum does not reach 2^16, so nothing of it is lost. -/
theorem jumpAddsV0 : Obligations.JumpAddsV0 := fun nnn s =>
  ⟨_, exec_jpV0 nnn s, jpV0_target_toNat nnn _, rfl⟩

/-! ### Call and return (R80, R78) -/

theorem exec_call (h : s.sp.val < 16) :
    exec (.call nnn) s = .next { executed s (zextAddr nnn) with
      sp := ⟨s.sp.val + 1, Nat.succ_lt_succ h⟩, stack := s.stack.set s.sp.val (s.pc + 2) h } :=
  congrArg (finish s) (dif_pos h)

theorem exec_call_full (h : s.sp.val = 16) : exec (.call nnn) s = .next (faulted s .stackOverflow 16) := by
  have hfull : ¬ s.sp.val < Config.stackDepth := by rw [h]; exact Nat.lt_irrefl 16
  refine (congrArg (finish s) (dif_neg hfull)).trans ?_
  rw [h]; rfl

/-- Settles O15: the two branches of the call. -/
theorem callPushesReturnAddress : Obligations.CallPushesReturnAddress := fun nnn _ =>
  ⟨fun h => ⟨_, exec_call h, rfl, rfl, zextAddr_toNat nnn, rfl⟩, exec_call_full⟩

theorem exec_ret (h : 0 < s.sp.val) : exec .ret s = .next { executed s (s.top h) with sp := s.drop.sp } :=
  congrArg (finish s) (dif_pos h)

theorem exec_ret_empty (h : s.sp.val = 0) : exec .ret s = .next (faulted s .stackUnderflow 0) :=
  congrArg (finish s) (dif_neg (Nat.not_lt.mpr (Nat.le_of_eq h)))

theorem stack_getElem?_top (h : 0 < s.sp.val) : s.stack[s.sp.val - 1]? = some (s.top h) :=
  Vector.getElem?_eq_getElem _

/-- Settles O16: the two branches of the return. -/
theorem returnPopsTop : Obligations.ReturnPopsTop := fun _ =>
  ⟨fun h => ⟨_, exec_ret h, rfl, stack_getElem?_top h, rfl⟩, exec_ret_empty⟩

/-- Settles O17: the slot the return reads is the one the call wrote, whatever ran in between. -/
theorem callThenReturnComesBack : Obligations.CallThenReturnComesBack := by
  intro nnn s t u hroom hcall hsp hstack
  cases (exec_call hroom).symm.trans hcall
  have hsp' : u.sp.val = s.sp.val + 1 := congrArg Fin.val hsp
  obtain ⟨r, hr, hrsp, htop, -⟩ := (returnPopsTop u).1 (by omega)
  refine ⟨r, hr, ?_, Fin.ext (by omega)⟩
  rw [hstack, hsp', Nat.add_sub_cancel] at htop
  simpa using htop.symm

end Sys2Proof.Laws.ControlFlow
end

section
/-! Register loads and ALU (41_alu.md): the random byte, and the flag-writing instructions where VF is left open
(30_encoding.md R73). -/

namespace Sys2Proof.Laws.Alu

open Sys2Proof Sys2Proof.Machine Sys2Proof.Spec

variable {s : State} {r : Byte} {f : Bool}

/-- What the flag-writing instructions share under AnyValue with x = F: VF takes the next free value over the result. -/
theorem retire_begin_writeRF_any (h : s.params.vfAlias = .anyValue) :
    retire (s.begin.writeRF 15 r f) =
      .next { executed s (s.pc + 2) with
        v := s.v.set 15 (Config.vfAnyValue s.freeDraws), freeDraws := s.freeDraws + 1 } := by
  have hopen : ¬ ((15 : Reg) ≠ regF ∨ s.begin.params.vfAlias = .flagWins) := by simp [h]
  have hv : (s.v.set 15 r).set 15 (Config.vfAnyValue s.freeDraws) = s.v.set 15 (Config.vfAnyValue s.freeDraws) := by
    simp
  rw [State.writeRF_any _ _ _ _ hopen, ← hv]; rfl

/-- Settles O26: each of the eight is a write of the pair with its own result and flag, both overwritten in VF. -/
theorem anyValueLeavesVfOpen : Obligations.AnyValueLeavesVfOpen := by
  intro y s i h hi
  simp only [List.mem_cons, List.not_mem_nil, or_false] at hi
  rcases hi with rfl | rfl | rfl | rfl | rfl | rfl | rfl | rfl <;> exact retire_begin_writeRF_any h

theorem exec_rnd (x : Reg) (kk : Byte) (s : State) :
    exec (.rnd x kk) s = .next { executed s (s.pc + 2) with
      v := s.v.set x (Config.randByte s.freeDraws &&& kk), freeDraws := s.freeDraws + 1 } := rfl

/-- Settles O27: a byte under the mask has no bit outside it. -/
theorem randomByteIsMasked : Obligations.RandomByteIsMasked := by
  intro x kk s
  refine ⟨?_, exec_rnd x kk s⟩
  rw [BitVec.and_assoc, BitVec.and_not_self]
  exact BitVec.and_zero

/-- Settles O28: the load leaves kk in V[x], and the sum of kk and 0 is kk. -/
theorem loadThenAddZeroIsIdentity : Obligations.LoadThenAddZeroIsIdentity := by
  intro x kk s
  have hload : exec (.ldImm x kk) s = .next { executed s (s.pc + 2) with v := s.v.set x kk } := retire_begin_writeV s x kk
  obtain ⟨u, hadd, hsum, hother, -⟩ := addImmediateWraps x 0 { executed s (s.pc + 2) with v := s.v.set x kk }
  refine ⟨_, u, hload, hadd, BitVec.eq_of_toNat_eq ?_, fun r hr => (hother r hr).trans ?_⟩
  · have hx : (s.v.set x kk)[x] = kk := State.readV_writeV_same s x kk
    rw [hsum, hx]
    exact Nat.mod_eq_of_lt kk.isLt
  · exact State.readV_writeV_other s x r kk hr

end Sys2Proof.Laws.Alu
end

section
/-! The STEP (30_encoding.md R66): what runs next, what a STEP can end in, and what the host gets (60_exceptions.md R125, R126). -/

namespace Sys2Proof.Laws.Stepping

open Sys2Proof Sys2Proof.Machine Sys2Proof.Spec

variable {s t : State} {i : Instr} {w : Word}

/-! ### One STEP -/

theorem step_of_nextIs (h : nextIs s i) : step s = exec i s := by
  obtain ⟨hrun, hpc, hd⟩ := h
  rw [decodeBytes] at hd
  simp [step, hrun, fetch_in s hpc, hd]

/-- Settles O6: the premise is the STEP's path through fetch and decode. -/
theorem stepRunsDecodedInstruction : Obligations.StepRunsDecodedInstruction := fun _ _ => step_of_nextIs

/-- What a STEP that answers a next state did: its fetch faulted, it executed the next instruction, or its word was none. -/
theorem step_next_cases (h : step s = .next t) :
    (t = takeFault s (raiseFault .fetchRange s.pc.toNat)) ∨
    (∃ i, nextIs s i ∧ exec i s = .next t) ∨
    (s.pc.toNat ≤ 0xFFE ∧ ∃ w, t = { s.begin with diagWord := w, lastStatus := .unrecognized }) := by
  have hrun := step_next_running s t h
  rcases step_cases s hrun with ⟨-, hs⟩ | ⟨hpc, w, hf, ⟨i, hd, hs⟩ | ⟨e, -, hs⟩⟩
  · exact .inl (Host.Outcome.next.inj (h.symm.trans hs))
  · refine .inr (.inl ⟨i, ⟨hrun, hpc, ?_⟩, hs.symm.trans h⟩)
    rw [fetch_in s hpc] at hf
    rw [decodeBytes, Except.ok.inj hf, hd]
  · exact .inr (.inr ⟨hpc, w, Host.Outcome.next.inj (h.symm.trans hs)⟩)

/-- What a STEP leaves in the latch and the inputs: a fault with a code on top of the state before it, or no fault and the fields of
the latch, the key vector and the parameters as before. -/
theorem step_latch (h : step s = .next t) :
    (∃ f : FaultEvent, f.code ≠ .none ∧ t = takeFault s f) ∨
    (t.lastStatus ≠ .fault ∧ t.halted = false ∧ t.faultCode = s.faultCode ∧ t.faultInfo = s.faultInfo ∧
      t.keys = s.keys ∧ t.params = s.params) := by
  have hrun := step_next_running s t h
  rcases step_next_cases h with rfl | ⟨i, -, hexec⟩ | ⟨-, w, rfl⟩
  · exact .inl ⟨_, FaultCode.noConfusion, rfl⟩
  · rcases exec_ended i s t hexec with hfault | ⟨hok, hhalt, hcode, hinfo, -, hkeys, hparams⟩
    · exact .inl hfault
    · exact .inr ⟨by rw [hok]; exact Status.noConfusion, hhalt.trans hrun, hcode, hinfo, hkeys, hparams⟩
  · exact .inr ⟨Status.noConfusion, hrun, rfl, rfl, rfl, rfl⟩

/-- Only a taken fault halts the core. -/
theorem halted_iff_of_step (h : step s = .next t) : t.halted = true ↔ t.lastStatus = .fault := by
  rcases step_latch h with ⟨f, -, rfl⟩ | ⟨hstatus, hhalt, -⟩
  · simp
  · simp [hstatus, hhalt]

/-! ### A word placed where STEP fetches (log 12) -/

theorem placeAddr_bound (s : State) : s.placeAddr.toNat ≤ 0xFFE := by
  unfold State.placeAddr
  split
  · next h => change s.pc.toNat + 1 < 4096 at h; omega
  · decide

theorem nextIs_withFetchWord (s : State) (i : Instr) : nextIs (s.withFetchWord 16 (encode i).toNat) i := by
  have ha := placeAddr_bound s
  obtain ⟨hread, -, -⟩ := Memory.pokeBlock_spec (encodeBytes i) s.mem s.placeAddr.toNat
  have hread := hread (by change s.placeAddr.toNat + 2 ≤ 4096; omega)
  refine ⟨rfl, ha, ?_⟩
  rw [State.withFetchWord, tableWord_toNat]
  exact (congrArg₂ (fun hi lo => decodeBytes [hi, lo]) (hread 0 Nat.zero_lt_two) (hread 1 Nat.one_lt_two)).trans
    (RoundTrip.decodeBytes_encodeBytes i)

/-- Settles O7: the placed bytes are read back and decode to the instruction. -/
theorem placedWordRunsNext : Obligations.PlacedWordRunsNext := fun s i => step_of_nextIs (nextIs_withFetchWord s i)

/-! ### Fetch (20_memory.md R53) -/

theorem wordOfBytes_eq_of_toNat {hi lo : Byte} (h : w.toNat = 256 * hi.toNat + lo.toNat) : wordOfBytes hi lo = w := by
  apply BitVec.eq_of_toNat_eq
  rw [wordOfBytes_toNat, h, Nat.mul_comm]

/-- Settles O9: the machine's bound is one below the last address, since a fetch reads two. -/
theorem fetchIsBigEndianAndBounded : Obligations.FetchIsBigEndianAndBounded := by
  refine fun s => ⟨fun hpc => ⟨_, fetch_in s hpc, ?_⟩, fun hpc hrun => step_fetch_fault s hrun hpc⟩
  rw [wordOfBytes_toNat, Nat.mul_comm]

/-! ### What the host gets (00_scope.md R12) -/

theorem stepOp_of_step (h : step s = .next t) : s.stepOp = .ok (t, t.stepReply) := by
  rw [State.stepOp, h]

theorem stepOp_halted (h : s.halted = true) : s.stepOp = .ok ({ s with lastStatus := .fault }, .stepFault s.faultCode) := by
  rw [State.stepOp, step_halted s h]

theorem stepReply_fault (h : t.lastStatus = .fault) : t.stepReply = .stepFault t.faultCode := by
  rw [State.stepReply, h]

/-- Settles O8: the word in memory is the listed one, and a listed word has no instruction. -/
theorem unrecognizedWordOnlyAdvances : Obligations.UnrecognizedWordOnlyAdvances := by
  intro s w hrun hpc hw hlisted t
  have hstep : step s = .next t := by
    have hd : decodeWord w = .error (.unrecognized w) := Rejection.rejects_decodeWord.mpr hlisted
    simp only [step, hrun, fetch_in s hpc, wordOfBytes_eq_of_toNat hw, hd]
    rfl
  exact ⟨hstep, stepOp_of_step hstep⟩

/-- Settles O10: of the two ends of a STEP, only the taken fault has the status Fault. -/
theorem faultIsPreciseAndAtomic : Obligations.FaultIsPreciseAndAtomic := by
  intro s t _ hstep hstatus
  have hreply : s.stepOp = .ok (t, .stepFault t.faultCode) := by rw [stepOp_of_step hstep, stepReply_fault hstatus]
  rcases step_latch hstep with ⟨f, hcode, rfl⟩ | ⟨hne, -⟩
  · exact ⟨rfl, hcode, hreply⟩
  · exact absurd hstatus hne

/-- Settles O60: every branch of a STEP answers a next state, and only a taken fault halts it. -/
theorem runningCoreAlwaysSteps : Obligations.RunningCoreAlwaysSteps := by
  intro s hrun
  have hnext : ∃ t, step s = .next t := by
    rcases step_cases s hrun with ⟨-, hs⟩ | ⟨-, w, -, ⟨i, -, hs⟩ | ⟨e, -, hs⟩⟩
    · exact ⟨_, hs⟩
    · rw [hs]; exact exec_next i s
    · exact ⟨_, hs⟩
  exact hnext.imp fun _ hstep => ⟨hstep, halted_iff_of_step hstep⟩

end Sys2Proof.Laws.Stepping
end

section
/-! Index register and memory transfer (42_index_memory.md R101 to R107). Each transfer is one access to a block of memory: what it
does when the access succeeds, and the fault it takes otherwise. -/

namespace Sys2Proof.Laws.Transfer

open Sys2Proof Sys2Proof.Machine Sys2Proof.Spec

variable {s t : State} {x : Reg} {m : Memory} {f : FaultEvent}

/-! ### The index register -/

theorem exec_ldI (nnn : Addr12) (s : State) : exec (.ldI nnn) s = .next { executed s (s.pc + 2) with i := zextAddr nnn } := rfl

theorem exec_addI (x : Reg) (s : State) :
    exec (.addI x) s = .next { executed s (s.pc + 2) with i := s.i + zextByte s.v[x] } := rfl

theorem exec_ldF (x : Reg) (s : State) : exec (.ldF x) s = .next { executed s (s.pc + 2) with i := glyphAddr s.v[x] } := rfl

theorem zextAddr_eq_ofNat (nnn : Addr12) : zextAddr nnn = BitVec.ofNat 16 nnn.toNat := by
  rw [BitVec.ofNat_toNat]; rfl

theorem add_zextByte_eq_ofNat (a : Word) (b : Byte) : a + zextByte b = BitVec.ofNat 16 ((a.toNat + b.toNat) % 65536) := by
  apply BitVec.eq_of_toNat_eq
  rw [BitVec.toNat_add, ControlFlow.zextByte_toNat, BitVec.toNat_ofNat, Nat.mod_mod]

/-- Settles O29: the three instructions, with the machine's 16-bit values read as numbers. -/
theorem indexWritesAreExact : Obligations.IndexWritesAreExact := by
  intro nnn x s
  rw [← zextAddr_eq_ofNat, ← add_zextByte_eq_ofNat]
  exact ⟨exec_ldI nnn s, exec_addI x s, exec_ldF x s⟩

/-! ### Stores (R104, R105) -/

theorem exec_ldB_ok (hm : memWriteBlock s.params s.mem s.i.toNat (decimalDigits s.v[x]) = .ok m) :
    exec (.ldB x) s = .next { executed s (s.pc + 2) with mem := m } := by
  simp only [exec, execLdB, State.readV, hm]; rfl

theorem exec_ldB_error (hm : memWriteBlock s.params s.mem s.i.toNat (decimalDigits s.v[x]) = .error f) :
    exec (.ldB x) s = .next (takeFault s f) := by
  simp only [exec, execLdB, State.readV, hm]; rfl

theorem exec_storeRegs_ok (hm : memWriteBlock s.params s.mem s.i.toNat (s.regBlock x) = .ok m) :
    exec (.storeRegs x) s = .next { executed s (s.pc + 2) with mem := m, i := indexAfterBlock s.i x } := by
  simp only [exec, execStoreRegs, hm]; rfl

theorem exec_storeRegs_error (hm : memWriteBlock s.params s.mem s.i.toNat (s.regBlock x) = .error f) :
    exec (.storeRegs x) s = .next (takeFault s f) := by
  simp only [exec, execStoreRegs, hm]; rfl

/-- Settles O30: the block of the three digits is written, or its first failing address is the fault. -/
theorem decimalDigitsAreStored : Obligations.DecimalDigitsAreStored := by
  intro x s
  constructor
  · intro hstorable
    obtain ⟨m, hm⟩ := memWriteBlock_ok s.params (decimalDigits s.v[x]) s.mem s.i.toNat hstorable
    obtain ⟨hdigit, hother, -, -⟩ := memWriteBlock_inv _ _ _ _ _ hm
    have hbyte := s.v[x].isLt
    have digit_toNat : ∀ n, n < 256 → (BitVec.ofNat 8 n).toNat = n := fun n hn =>
      (BitVec.toNat_ofNat n 8).trans (Nat.mod_eq_of_lt hn)
    refine ⟨_, exec_ldB_ok hm, ?_, ?_, ?_, fun a ha => hother a ?_, rfl⟩
    · exact (congrArg BitVec.toNat (hdigit 0 (show 0 < 3 by decide))).trans (digit_toNat _ (by omega))
    · exact (congrArg BitVec.toNat (hdigit 1 (show 1 < 3 by decide))).trans (digit_toNat _ (by omega))
    · exact (congrArg BitVec.toNat (hdigit 2 (show 2 < 3 by decide))).trans (digit_toNat _ (by omega))
    · change _ ∨ s.i.toNat + 3 ≤ a; omega
  · intro k hk hbefore hfail
    exact exec_ldB_error (memWriteBlock_fault s.params (decimalDigits s.v[x]) s.mem s.i.toNat k hk hbefore hfail)

/-- I past the block: inside the address space it does not wrap. -/
theorem indexAfterBlock_toNat (h : s.i.toNat + x.val < 4096) : (indexAfterBlock s.i x).toNat = s.i.toNat + x.val + 1 :=
  (BitVec.toNat_ofNat _ 16).trans (Nat.mod_eq_of_lt (by omega))

/-- What a store that succeeds leaves in memory: the registers at the block's addresses, every other byte as before. -/
theorem read_stored (hm : memWriteBlock s.params s.mem s.i.toNat (s.regBlock x) = .ok m) :
    (∀ r : Reg, r ≤ x → m.read (s.i.toNat + r.val) = s.v[r]) ∧
    (∀ a, a < s.i.toNat ∨ s.i.toNat + x.val < a → m.read a = s.mem.read a) ∧ s.i.toNat + x.val < 4096 := by
  obtain ⟨hblock, hother, -, hwritable⟩ := memWriteBlock_inv _ _ _ _ _ hm
  rw [regBlock_length] at hother
  refine ⟨fun r hr => ?_, fun a ha => hother a (by omega), (hwritable x.val (by rw [regBlock_length]; omega)).1⟩
  have hlen : r.val < (s.regBlock x).length := by rw [regBlock_length]; exact Nat.lt_succ_of_le hr
  exact (hblock r.val hlen).trans (regBlock_get s x r.val hlen r.isLt)

/-- Settles O31: the block of the registers is written, or its first failing address is the fault. -/
theorem registerBlockIsStored : Obligations.RegisterBlockIsStored := by
  intro x s
  constructor
  · intro hstorable
    obtain ⟨m, hm⟩ := memWriteBlock_ok s.params (s.regBlock x) s.mem s.i.toNat fun k hk =>
      hstorable k (by rw [regBlock_length] at hk; omega)
    obtain ⟨hblock, hother, hin⟩ := read_stored hm
    exact ⟨_, exec_storeRegs_ok hm, hblock, hother, indexAfterBlock_toNat hin, rfl⟩
  · intro k hk hbefore hfail
    exact exec_storeRegs_error
      (memWriteBlock_fault s.params (s.regBlock x) s.mem s.i.toNat k (by rw [regBlock_length]; omega) hbefore hfail)

/-- A store that did not halt the core wrote its block. -/
theorem stored_of_exec (h : exec (.storeRegs x) s = .next t) (hrun : t.halted = false) :
    ∃ m, memWriteBlock s.params s.mem s.i.toNat (s.regBlock x) = .ok m ∧
      t = { executed s (s.pc + 2) with mem := m, i := indexAfterBlock s.i x } := by
  cases hm : memWriteBlock s.params s.mem s.i.toNat (s.regBlock x) with
  | ok m => exact ⟨m, rfl, Host.Outcome.next.inj (h.symm.trans (exec_storeRegs_ok hm))⟩
  | error f =>
    cases h.symm.trans (exec_storeRegs_error hm)
    exact absurd hrun Bool.noConfusion

/-! ### The load (R106) -/

theorem exec_loadRegs_ok {bs : List Byte} (hb : memReadBlock s.mem s.i.toNat (x.val + 1) = .ok bs) :
    exec (.loadRegs x) s =
      .next { executed s (s.pc + 2) with v := setRegsFrom s.v 0 bs, i := indexAfterBlock s.i x } := by
  simp only [exec, execLoadRegs, hb]; rfl

theorem exec_loadRegs_error (hb : memReadBlock s.mem s.i.toNat (x.val + 1) = .error f) :
    exec (.loadRegs x) s = .next (takeFault s f) := by
  simp only [exec, execLoadRegs, hb]; rfl

/-- The registers after a load of `n` bytes: the first `n` take the bytes, the others keep theirs. -/
theorem getElem_setRegsFrom_zero (v : Vector Byte 16) (g : Nat → Byte) (n : Nat) (r : Reg) :
    (setRegsFrom v 0 ((List.range n).map g))[r] = if r.val < n then g r.val else v[r] := by
  have h := setRegsFrom_get ((List.range n).map g) v 0 r.val r.isLt
  simp only [Nat.zero_le, true_and, Nat.zero_add, List.length_map, List.length_range, Nat.sub_zero, List.getElem_map,
    List.getElem_range, dite_eq_ite] at h
  exact h

/-- Settles O32: the block is read whole before a register is written, or its first address outside memory is the fault. -/
theorem registerBlockIsLoaded : Obligations.RegisterBlockIsLoaded := by
  intro x s
  constructor
  · intro hin
    refine ⟨_, exec_loadRegs_ok (memReadBlock_ok s.mem (x.val + 1) s.i.toNat hin), fun r hr => ?_, fun r hr => ?_,
      indexAfterBlock_toNat hin, rfl⟩
    · exact (getElem_setRegsFrom_zero s.v _ _ r).trans (if_pos (Nat.lt_succ_of_le hr))
    · exact (getElem_setRegsFrom_zero s.v _ _ r).trans (if_neg (Nat.not_lt.mpr hr))
  · intro hout
    exact exec_loadRegs_error (memReadBlock_fault s.mem (x.val + 1) s.i.toNat (Nat.succ_pos _) (Nat.lt_succ_of_le hout))

/-- A load that succeeds read its block, all of it in memory. -/
theorem readBlock_of_ok {bs : List Byte} (hb : memReadBlock s.mem s.i.toNat (x.val + 1) = .ok bs) :
    bs = (List.range (x.val + 1)).map fun k => s.mem.read (s.i.toNat + k) := by
  by_cases hin : s.i.toNat + (x.val + 1) ≤ 4096
  · rw [memReadBlock_ok _ _ _ hin] at hb
    exact (Except.ok.inj hb).symm
  · rw [memReadBlock_fault _ _ _ (Nat.succ_pos _) (Nat.lt_of_not_le hin)] at hb
    cases hb

/-- Settles O33: the load reads the addresses the store wrote, and these lay in memory. -/
theorem storeThenLoadRestores : Obligations.StoreThenLoadRestores := by
  intro x s t u _ hstore hrun hmem hi
  obtain ⟨m, hm, rfl⟩ := stored_of_exec hstore hrun
  obtain ⟨hblock, -, hin⟩ := read_stored hm
  obtain ⟨r, hload, hlow, hhigh, -, hr⟩ := (registerBlockIsLoaded x u).1 (by rw [hi]; exact hin)
  refine ⟨r, hload, by rw [hr]; rfl, fun k hk => ?_, hhigh⟩
  rw [hlow k hk, hmem, hi]; exact hblock k hk

/-- Settles O34: the two bytes the store wrote are those the next fetch reads. -/
theorem storedWordIsFetchedNext : Obligations.StoredWordIsFetchedNext := by
  intro s t i _ hstore hrun hbase hin hhigh hlow
  have hnext : (s.pc + 2).toNat = s.pc.toNat + 2 := ControlFlow.pc_add_toNat (by omega) (by decide)
  obtain ⟨m, hm, rfl⟩ := stored_of_exec hstore hrun
  obtain ⟨hblock, -, -⟩ := read_stored hm
  have hread0 : m.read (s.pc + 2).toNat = highByte (encode i) := by rw [← hbase, ← hhigh]; exact hblock 0 (by decide)
  have hread1 : m.read ((s.pc + 2).toNat + 1) = lowByte (encode i) := by rw [← hbase, ← hlow]; exact hblock 1 (by decide)
  refine Stepping.step_of_nextIs ⟨hrun, ?_, ?_⟩
  · change (s.pc + 2).toNat ≤ 0xFFE; omega
  · change decodeBytes [m.read (s.pc + 2).toNat, m.read ((s.pc + 2).toNat + 1)] = _
    rw [hread0, hread1]; exact RoundTrip.decodeBytes_encodeBytes i

end Sys2Proof.Laws.Transfer
end

section
/-! Display (43_display.md R109 to R111): `Dxyn` as an inversion of the pixels its clipped sprite covers. -/

namespace Sys2Proof.Laws.Screen

open Sys2Proof Sys2Proof.Machine Sys2Proof.Spec

variable {s t : State} {x y : Reg} {n : Height}

/-! ### The row-word form (R109) -/

theorem rowPixel_xor (a b : BitVec 64) (d : Nat) : rowPixel (a ^^^ b) d = (rowPixel a d ^^ rowPixel b d) :=
  BitVec.getLsbD_xor

theorem rowPixel_and (a b : BitVec 64) (d : Nat) : rowPixel (a &&& b) d = (rowPixel a d && rowPixel b d) :=
  BitVec.getLsbD_and

/-- A row word is not 0 exactly when a pixel of it is ON. -/
theorem row_ne_zero_iff (a : BitVec 64) : a ≠ 0 ↔ ∃ d, d < 64 ∧ rowPixel a d = true := by
  constructor
  · intro hne
    by_contra hoff
    push Not at hoff
    exact hne (row_ext a 0 fun d hd => (Bool.eq_false_of_not_eq_true (hoff d hd)).trans BitVec.getLsbD_zero.symm)
  · rintro ⟨d, -, hd⟩ rfl
    exact absurd (BitVec.getLsbD_zero.symm.trans hd) Bool.noConfusion

/-- Settles O38: the mask of the row-word form has the pixels the row covers. -/
theorem rowWordFormAgreesWithPixels : Obligations.RowWordFormAgreesWithPixels := by
  intro sprite xc acc _
  obtain ⟨hpixel, hhit⟩ := drawRow_spec sprite xc acc
  refine Prod.ext (row_ext _ _ fun d hd => ?_) (Bool.eq_iff_iff.mpr ?_)
  · rw [hpixel d hd, drawRowWord, rowPixel_xor, rowPixel_spriteMask sprite xc d hd]
  · rw [hhit, drawRowWord, Bool.or_eq_true, bne_iff_ne, row_ne_zero_iff]
    refine or_congr_right (exists_congr fun d => and_congr_right fun hd => ?_)
    rw [rowPixel_and, rowPixel_spriteMask sprite xc d hd, Bool.and_eq_true, and_comm]

/-! ### The draw (R109, R110) -/

/-- The sprite of `drw x y n`, drawn on the screen of the state: the new screen and the collision. -/
def spriteDrawn (s : State) (x y : Reg) (n : Height) : Except FaultEvent (FrameBuffer × Bool) :=
  drawSprite s.mem s.i.toNat (originColumn s.v[x]) (originRow s.v[y]) n.val s.fb

/-- The state an executed draw leaves. -/
def afterDraw (s : State) (d : FrameBuffer × Bool) : State :=
  { executed s (s.pc + 2) with v := s.v.set 15 (flagByte d.2), fb := d.1, drawFlag := true }

theorem exec_drw_ok {d : FrameBuffer × Bool} (hd : spriteDrawn s x y n = .ok d) :
    exec (.drw x y n) s = .next (afterDraw s d) := by
  rw [spriteDrawn] at hd
  simp only [exec, execDrw, State.readV, hd]; rfl

theorem exec_drw_error {f : FaultEvent} (hd : spriteDrawn s x y n = .error f) :
    exec (.drw x y n) s = .next (takeFault s f) := by
  rw [spriteDrawn] at hd
  simp only [exec, execDrw, State.readV, hd]; rfl

theorem spriteDrawn_ok (h : rowsDrawn s y n = 0 ∨ s.i.toNat + rowsDrawn s y n ≤ 4096) : ∃ d, spriteDrawn s x y n = .ok d := by
  refine drawRows_ok s.mem s.i.toNat _ (originRow s.v[y]) n.val 0 _ fun j _ hj hrow => ?_
  have hdrawn : j < rowsDrawn s y n := by rw [rowsDrawn]; rw [originRow] at hrow; omega
  omega

/-- The last row drawn lies outside memory, so the first address outside is reached. -/
theorem spriteDrawn_fault (hrows : rowsDrawn s y n ≠ 0) (hout : 4096 < s.i.toNat + rowsDrawn s y n) :
    spriteDrawn s x y n = .error (raiseFault .memReadRange (max s.i.toNat 4096)) := by
  have hlast : rowsDrawn s y n - 1 < n.val ∧ originRow s.v[y] + (rowsDrawn s y n - 1) < 32 := by
    rw [rowsDrawn] at hrows ⊢; rw [originRow]; omega
  exact drawRows_fault s.mem s.i.toNat _ (originRow s.v[y]) n.val 0 _ (rowsDrawn s y n - 1) (Nat.zero_le _) (by omega) hlast.2
    (by omega)

/-- Settles O37: the draw faults before its state is made. -/
theorem drawBeyondMemoryFaults : Obligations.DrawBeyondMemoryFaults := fun _ _ _ _ hrows hout =>
  exec_drw_error (spriteDrawn_fault hrows hout)

/-- The machine's form of the pixels under a 1 bit of the clipped sprite. -/
def covered (s : State) (x y : Reg) (n : Height) (r : Fin 32) (c : Fin 64) : Bool :=
  rowsCover s.mem s.i.toNat (originColumn s.v[x]) (originRow s.v[y]) n.val 0 r c.val

theorem covered_iff (r : Fin 32) (c : Fin 64) : covered s x y n r c = true ↔ spriteCovers s x y n r c := by
  simp only [covered, rowsCover, rowCovers, Bool.and_eq_true, decide_eq_true_eq, and_assoc]; rfl

/-- A draw inverts the covered pixels (R109). -/
theorem pixel_afterDraw {d : FrameBuffer × Bool} (hd : spriteDrawn s x y n = .ok d) (r : Fin 32) (c : Fin 64) :
    (afterDraw s d).pixel r c = (s.pixel r c ^^ covered s x y n r c) :=
  (drawRows_spec _ _ _ _ _ _ _ _ _ hd).1 r c.val c.isLt

theorem flagByte_eq_one_iff (b : Bool) : flagByte b = 1 ↔ b = true := by
  cases b <;> decide

theorem afterDraw_vf (s : State) (d : FrameBuffer × Bool) : (afterDraw s d).v[(15 : Reg)] = flagByte d.2 :=
  State.readV_writeV_same s 15 _

theorem afterDraw_v_other (d : FrameBuffer × Bool) {r : Reg} (h : r ≠ 15) : (afterDraw s d).v[r] = s.v[r] :=
  State.readV_writeV_other s 15 r _ h

/-- VF after a draw is 1 exactly when a covered pixel was ON (R109). -/
theorem afterDraw_vf_eq_one_iff {d : FrameBuffer × Bool} (hd : spriteDrawn s x y n = .ok d) :
    (afterDraw s d).v[(15 : Reg)] = 1 ↔ ∃ (r : Fin 32) (c : Fin 64), covered s x y n r c = true ∧ s.pixel r c = true := by
  rw [afterDraw_vf, flagByte_eq_one_iff, (drawRows_spec _ _ _ _ _ _ _ _ _ hd).2]
  constructor
  · rintro (h | ⟨r, c, hc, hcov, hon⟩)
    · exact absurd h Bool.noConfusion
    · exact ⟨r, ⟨c, hc⟩, hcov, hon⟩
  · rintro ⟨r, c, hcov, hon⟩
    exact .inr ⟨r, c.val, c.isLt, hcov, hon⟩

/-- Settles O36: the state of the executed draw, its pixels, its collision and its frame. -/
theorem drawInvertsCoveredPixels : Obligations.DrawInvertsCoveredPixels := by
  intro x y n s hrows
  obtain ⟨d, hd⟩ := spriteDrawn_ok (x := x) hrows
  refine ⟨_, exec_drw_ok hd, fun r c hc => ?_, fun r c hc => ?_, ?_, ?_, fun r hr => afterDraw_v_other d hr, rfl⟩
  · rw [pixel_afterDraw hd, (covered_iff r c).mpr hc, Bool.xor_true]
  · rw [pixel_afterDraw hd, Bool.eq_false_of_not_eq_true (mt (covered_iff r c).mp hc), Bool.xor_false]
  · rw [afterDraw_vf]; cases d.2 <;> simp [flagByte]
  · simp only [afterDraw_vf_eq_one_iff hd, covered_iff]

/-! ### The laws of the draw (R111) -/

/-- A draw that did not halt the core drew its sprite, every row of it from memory. -/
theorem drawn_of_exec (h : exec (.drw x y n) s = .next t) (hrun : t.halted = false) :
    (∃ d, spriteDrawn s x y n = .ok d ∧ t = afterDraw s d) ∧
      (rowsDrawn s y n = 0 ∨ s.i.toNat + rowsDrawn s y n ≤ 4096) := by
  cases hd : spriteDrawn s x y n with
  | ok d =>
    refine ⟨⟨d, rfl, Host.Outcome.next.inj (h.symm.trans (exec_drw_ok hd))⟩, ?_⟩
    by_contra hout
    rw [spriteDrawn_fault (by omega) (by omega)] at hd
    cases hd
  | error f =>
    cases h.symm.trans (exec_drw_error hd)
    exact absurd hrun Bool.noConfusion

/-- Settles O40: a covered pixel goes from ON to OFF, and no other pixel changes. -/
theorem collisionMeansAPixelWentOff : Obligations.CollisionMeansAPixelWentOff := by
  intro x y n s t _ hexec hrun
  obtain ⟨⟨d, hd, rfl⟩, -⟩ := drawn_of_exec hexec hrun
  rw [afterDraw_vf_eq_one_iff hd]
  refine exists_congr fun r => exists_congr fun c => ?_
  rw [pixel_afterDraw hd, and_comm]
  refine and_congr_right fun hon => ?_
  rw [hon, Bool.true_xor, Bool.not_eq_false']

/-- Screens are equal when their pixels are. -/
theorem fb_ext {u : State} (h : ∀ (r : Fin 32) (c : Fin 64), u.pixel r c = s.pixel r c) : u.fb = s.fb :=
  Vector.ext fun r hr => row_ext _ _ fun c hc => h ⟨r, hr⟩ ⟨c, hc⟩

/-- After a draw that leaves its coordinates alone the same draw covers the same pixels. -/
theorem covered_afterDraw (d : FrameBuffer × Bool) (hx : x ≠ 15) (hy : y ≠ 15) (r : Fin 32) (c : Fin 64) :
    covered (afterDraw s d) x y n r c = covered s x y n r c := by
  rw [covered, covered, afterDraw_v_other d hx, afterDraw_v_other d hy]; rfl

/-- Settles O39: the two draws cover the same pixels and invert each of them twice; the second finds a covered pixel ON exactly
where the first found it OFF. -/
theorem drawTwiceRestoresTheScreen : Obligations.DrawTwiceRestoresTheScreen := by
  intro x y n s t _ hx hy hexec hrun
  obtain ⟨⟨d, hd, rfl⟩, hrows⟩ := drawn_of_exec hexec hrun
  have hrows' : rowsDrawn (afterDraw s d) y n = rowsDrawn s y n := by
    rw [rowsDrawn, rowsDrawn, afterDraw_v_other d hy]
  obtain ⟨d', hd'⟩ := spriteDrawn_ok (s := afterDraw s d) (x := x) (y := y) (n := n) (by rw [hrows']; exact hrows)
  refine ⟨_, exec_drw_ok hd', fb_ext fun r c => ?_, ?_⟩
  · rw [pixel_afterDraw hd', pixel_afterDraw hd, covered_afterDraw d hx hy, Bool.xor_assoc, Bool.xor_self, Bool.xor_false]
  · rw [afterDraw_vf_eq_one_iff hd']
    refine exists_congr fun r => exists_congr fun c => ?_
    rw [covered_afterDraw d hx hy, pixel_afterDraw hd]
    cases covered s x y n r c <;> simp

end Sys2Proof.Laws.Screen
end

section
/-! The host's operations (10_state.md R39 to R43): each one's reply and the fields it writes. -/

namespace Sys2Proof.Laws.Operations

open Sys2Proof Sys2Proof.Machine Sys2Proof.Spec

variable {s t : State} {op : HostOp} {r : HostReply}

/-! ### TICK (60_exceptions.md R134) -/

theorem countdown_toNat (b : Byte) : (countdown b).toNat = b.toNat - 1 := by
  unfold countdown
  split
  · next h => rw [h]; rfl
  · next h =>
    bv_omega

/-- Settles O52: a timer counts as a natural number does, stopping at 0. -/
theorem tickCountsDownToZero : Obligations.TickCountsDownToZero := fun s =>
  ⟨s.tick, rfl, countdown_toNat s.dt, countdown_toNat s.st, rfl⟩

/-! ### LOAD (70_reset_and_hazards.md R140) -/

theorem load_fits {bytes : List Byte} (h : bytes.length ≤ s.params.maxProgramLen) :
    s.load bytes = ({ s with mem := s.mem.pokeBlock Config.programBase bytes }, .loadOk) :=
  if_neg (Nat.not_lt.mpr h)

theorem load_too_large {bytes : List Byte} (h : s.params.maxProgramLen < bytes.length) : s.load bytes = (s, .loadTooLarge) :=
  if_pos h

/-- Settles O53: a program within the bound ends inside memory. -/
theorem loadCopiesAllOrNothing : Obligations.LoadCopiesAllOrNothing := by
  intro bytes s hbound
  refine ⟨fun hfits => ?_, fun hlarge => congrArg Except.ok (load_too_large hlarge)⟩
  obtain ⟨hcopied, hother, -⟩ := Memory.pokeBlock_spec bytes s.mem 0x200
  exact ⟨_, congrArg Except.ok (load_fits hfits), hcopied (by omega), hother, rfl⟩

/-! ### INIT (70_reset_and_hazards.md R138) -/

/-- Settles O54: INIT writes the reset value of every field but memory, which the table fills. -/
theorem initGivesTheResetState : Obligations.InitGivesTheResetState := by
  refine ⟨State.init_reset, fun s => ⟨s.init, rfl, ?_⟩⟩
  obtain ⟨hfont, hzero, -⟩ := initialMemory_spec s.params
  exact ⟨hzero, hfont, Reset.reset_v_getElem, rfl, rfl, rfl, fun j => Vector.getElem_replicate j.isLt, rfl, rfl,
    Screen.pixel_of_fb_eq_blankFrame rfl, rfl,
    fun k => ⟨Vector.getElem_replicate k.isLt, Vector.getElem_replicate k.isLt⟩,
    rfl, rfl, rfl, rfl, rfl, rfl, rfl, rfl, rfl⟩

/-! ### SET_KEY, CLEAR_DRAW_FLAG and the reads (R38 to R43) -/

theorem hostAct_setKey (s : State) (k : Key) (p : Bool) :
    hostAct (.setKey k.val p) s = .ok ({ s with keys := s.keys.set k p }, .done) := by
  rw [hostAct, State.setKey, dif_pos k.isLt]

theorem hostAct_setKey_out {k : Nat} (p : Bool) (h : 16 ≤ k) :
    hostAct (.setKey k p) s = .error (.keyNumberOutOfRange k) := by
  rw [hostAct, State.setKey, dif_neg (Nat.not_lt.mpr h)]

theorem getElem_set_key_other (v : KeyVector) {j k : Key} (p : Bool) (h : j ≠ k) : (v.set k p)[j] = v[j] :=
  Vector.getElem_set_ne k.isLt j.isLt (fun e => h (Fin.ext e.symm))

theorem hostAct_readSoundActive (s : State) : hostAct .readSoundActive s = .ok (s, .bit (decide (s.st ≠ 0))) := by
  have hsound : s.soundActive = decide (s.st ≠ 0) := Bool.eq_iff_iff.mpr (bne_iff_ne.trans decide_eq_true_iff.symm)
  rw [hostAct, hsound]

/-- Settles O55: each operation by its own equation. -/
theorem hostInputsTouchOneThing : Obligations.HostInputsTouchOneThing := fun s =>
  ⟨fun k p => ⟨_, hostAct_setKey s k p, Vector.getElem_set_self k.isLt, fun _ hj => getElem_set_key_other _ p hj, rfl⟩,
    fun _ p hk => hostAct_setKey_out p hk, rfl, rfl, hostAct_readSoundActive s,
    rfl, rfl, rfl, rfl, rfl⟩

/-! ### Every operation -/

/-- What an accepted operation does: INIT, a LOAD that copies, the STEP, or a write of nothing but the timers, the keys and
drawFlag. -/
theorem hostAct_cases (h : hostAct op s = .ok (t, r)) :
    (op = .init ∧ t = s.init) ∨ (∃ bytes, t = { s with mem := s.mem.pokeBlock Config.programBase bytes }) ∨
    s.stepOp = .ok (t, r) ∨
    ∃ dt st keys drawFlag, t = { s with dt := dt, st := st, keys := keys, drawFlag := drawFlag } := by
  cases op with
  | init => cases h; exact .inl ⟨rfl, rfl⟩
  | load bytes =>
    by_cases hfits : bytes.length ≤ s.params.maxProgramLen
    · cases (congrArg Except.ok (load_fits hfits)).symm.trans h
      exact .inr (.inl ⟨bytes, rfl⟩)
    · cases (congrArg Except.ok (load_too_large (Nat.lt_of_not_le hfits))).symm.trans h
      exact .inr (.inr (.inr ⟨_, _, _, _, rfl⟩))
  | step => exact .inr (.inr (.inl h))
  | setKey k p =>
    by_cases hk : k < 16
    · cases (hostAct_setKey s ⟨k, hk⟩ p).symm.trans h
      exact .inr (.inr (.inr ⟨_, _, _, _, rfl⟩))
    · cases (hostAct_setKey_out p (Nat.le_of_not_lt hk)).symm.trans h
  | _ => cases h; exact .inr (.inr (.inr ⟨_, _, _, _, rfl⟩))

/-- Settles O11: on a halted core the STEP writes the status alone, and only INIT writes the latch. -/
theorem haltedCoreExecutesNothing : Obligations.HaltedCoreExecutesNothing := by
  intro s hhalt
  refine ⟨step_halted s hhalt, Stepping.stepOp_halted hhalt, fun op t r hop h => ?_, rfl, rfl, rfl⟩
  rcases hostAct_cases h with ⟨hinit, -⟩ | ⟨bytes, rfl⟩ | hstep | ⟨_, _, _, _, rfl⟩
  · exact absurd hinit hop
  · exact ⟨hhalt, rfl, rfl⟩
  · cases (Stepping.stepOp_halted hhalt).symm.trans hstep
    exact ⟨hhalt, rfl, rfl⟩
  · exact ⟨hhalt, rfl, rfl⟩

theorem hostRun_cons {ops : List HostOp} (h : hostAct op s = .ok (t, r)) : hostRun (op :: ops) s = hostRun ops t := by
  rw [hostRun, h]

end Sys2Proof.Laws.Operations
end

section
/-! Keys (44_input_timers.md): the two key skips, and the wait of `Fx0A` with its three transitions (R116). -/

namespace Sys2Proof.Laws.Keys

open Sys2Proof Sys2Proof.Machine Sys2Proof.Spec

variable {s : State} {x : Reg}

/-! ### The key skips (R113, R114, R121) -/

theorem exec_skp (h : s.v[x].toNat < 16) :
    exec (.skp x) s = .next (executed s (if s.keys[s.v[x].toNat] = true then s.pc + 4 else s.pc + 2)) := by
  simp only [exec, execSkp, State.readV, keyIndex_in _ h]
  exact ControlFlow.retire_skipIf_begin Iff.rfl s

theorem exec_sknp (h : s.v[x].toNat < 16) :
    exec (.sknp x) s = .next (executed s (if s.keys[s.v[x].toNat] = false then s.pc + 4 else s.pc + 2)) := by
  simp only [exec, execSknp, State.readV, keyIndex_in _ h]
  exact ControlFlow.retire_skipIf_begin (Bool.not_eq_true' _).to_iff s

theorem exec_skp_out (h : 15 < s.v[x].toNat) : exec (.skp x) s = .next (faulted s .keyRange s.v[x].toNat) := by
  simp only [exec, execSkp, State.readV, keyIndex_out _ h]; rfl

theorem exec_sknp_out (h : 15 < s.v[x].toNat) : exec (.sknp x) s = .next (faulted s .keyRange s.v[x].toNat) := by
  simp only [exec, execSknp, State.readV, keyIndex_out _ h]; rfl

/-- Settles O42: V[x] as a key number, in range or not. -/
theorem keySkipsReadTheLevel : Obligations.KeySkipsReadTheLevel := by
  intro x s
  refine ⟨fun k hk => ?_, fun hout => ⟨exec_skp_out hout, exec_sknp_out hout⟩⟩
  have hin : s.v[x].toNat < 16 := hk ▸ k.isLt
  have hlevel : s.keys[s.v[x].toNat] = s.keys[k] := by simp only [hk]; rfl
  rw [← hlevel]
  exact ⟨exec_skp hin, exec_sknp hin⟩

/-! ### The wait (R116) -/

/-- The state that waits for a key at PC, the snapshot taken anew: what the entry and a poll without a release leave. -/
def waitHere (s : State) : State :=
  { s with keysPrev := s.keys, waitState := .waiting, waitAddr := s.pc, lastStatus := .ok }

/-- The state in which a poll leaves the wait with key `k`. -/
def resolved (s : State) (x : Reg) (k : Key) : State :=
  { executed s (s.pc + 2) with v := s.v.set x (BitVec.ofNat 8 k.val), keysPrev := s.keys }

theorem exec_ldVK_enter (h : s.waitState = .idle ∨ s.waitAddr ≠ s.pc) : exec (.ldVK x) s = .next (waitHere s) := by
  have hpc : s.advance.pc - 2 = s.pc := BitVec.add_sub_cancel s.pc 2
  simp only [exec, execLdVK, if_pos h, retire_eq, State.enterWait, State.waitAgain, hpc]
  rfl

/-- Without the entry's condition the core waits at PC. -/
theorem waiting_of_not_enter (h : ¬ (s.waitState = .idle ∨ s.waitAddr ≠ s.pc)) :
    s.waitState = .waiting ∧ s.waitAddr = s.pc := by
  obtain ⟨hidle, haddr⟩ := not_or.mp h
  refine ⟨?_, not_not.mp haddr⟩
  cases hs : s.waitState with
  | idle => exact absurd hs hidle
  | waiting => rfl

/-- A wait at PC is left as it is but for its snapshot. -/
theorem waitHere_of_waiting (hw : s.waitState = .waiting) (ha : s.waitAddr = s.pc) :
    waitHere s = { s with keysPrev := s.keys, lastStatus := .ok } := by
  rw [waitHere, ← hw, ← ha]

theorem exec_ldVK_poll (hw : s.waitState = .waiting) (ha : s.waitAddr = s.pc) :
    exec (.ldVK x) s = retire (s.advance.pollWait x) := by
  have hpoll : ¬ (s.waitState = .idle ∨ s.waitAddr ≠ s.pc) := by simp [hw, ha]
  simp only [exec, execLdVK, if_neg hpoll]

theorem exec_ldVK_poll_none (hw : s.waitState = .waiting) (ha : s.waitAddr = s.pc)
    (hf : firstReleased s.keysPrev s.keys = none) : exec (.ldVK x) s = .next (waitHere s) := by
  have hpc : s.advance.pc - 2 = s.pc := BitVec.add_sub_cancel s.pc 2
  rw [exec_ldVK_poll hw ha, State.pollWait_none s.advance x hf, State.waitAgain, hpc, waitHere_of_waiting hw ha]
  rfl

theorem exec_ldVK_poll_some (hw : s.waitState = .waiting) (ha : s.waitAddr = s.pc) {k : Key}
    (hf : firstReleased s.keysPrev s.keys = some k) : exec (.ldVK x) s = .next (resolved s x k) := by
  rw [exec_ldVK_poll hw ha, State.pollWait_some s.advance x k hf]
  rfl

theorem exec_ldVK_repeat (hw : s.waitState = .waiting) (ha : s.waitAddr = s.pc) (hk : ∀ k : Key, ¬ released s k) :
    exec (.ldVK x) s = .next (waitHere s) :=
  exec_ldVK_poll_none hw ha (firstReleased_none _ _ hk)

theorem exec_ldVK_resolve (hw : s.waitState = .waiting) (ha : s.waitAddr = s.pc) {k : Key} (hk : released s k)
    (hmin : ∀ j : Key, j < k → ¬ released s j) : exec (.ldVK x) s = .next (resolved s x k) :=
  exec_ldVK_poll_some hw ha (firstReleased_some _ _ k hk hmin)

/-- `Fx0A` waits at PC or leaves the wait with a key. -/
theorem exec_ldVK_cases (x : Reg) (s : State) :
    exec (.ldVK x) s = .next (waitHere s) ∨ ∃ k, exec (.ldVK x) s = .next (resolved s x k) := by
  by_cases henter : s.waitState = .idle ∨ s.waitAddr ≠ s.pc
  · exact .inl (exec_ldVK_enter henter)
  · obtain ⟨hw, ha⟩ := waiting_of_not_enter henter
    cases hf : firstReleased s.keysPrev s.keys with
    | none => exact .inl (exec_ldVK_poll_none hw ha hf)
    | some k => exact .inr ⟨k, exec_ldVK_poll_some hw ha hf⟩

/-- Settles O43: the three transitions. -/
theorem keyWaitEntersPollsAndResolves : Obligations.KeyWaitEntersPollsAndResolves := fun _ _ =>
  ⟨exec_ldVK_enter, fun hw ha hk => waitHere_of_waiting hw ha ▸ exec_ldVK_repeat hw ha hk,
    fun hw ha _ => exec_ldVK_resolve hw ha⟩

/-! ### A wait while no key changes (R117) -/

/-- The wait at PC has no release pending, or there is no wait at PC. -/
def Unresolved (s : State) : Prop := s.waitState = .idle ∨ s.waitAddr ≠ s.pc ∨ ∀ k : Key, ¬ released s k

theorem exec_ldVK_unresolved (h : Unresolved s) : exec (.ldVK x) s = .next (waitHere s) := by
  by_cases henter : s.waitState = .idle ∨ s.waitAddr ≠ s.pc
  · exact exec_ldVK_enter henter
  · obtain ⟨hw, ha⟩ := waiting_of_not_enter henter
    obtain ⟨hidle, haddr⟩ := not_or.mp henter
    exact exec_ldVK_repeat hw ha ((h.resolve_left hidle).resolve_left haddr)

/-- Against a snapshot just taken no key is released. -/
theorem not_released_waitHere (s : State) (k : Key) : ¬ released (waitHere s) k := fun ⟨hprev, hnow⟩ =>
  absurd (hprev.symm.trans hnow) Bool.noConfusion

theorem unresolved_waitHere (s : State) : Unresolved (waitHere s) := .inr (.inr (not_released_waitHere s))

theorem nextIs_waitHere {i : Instr} (h : nextIs s i) : nextIs (waitHere s) i := h

theorem run_succ {M : Host.Core} {a b : M.State} (h : M.step a = .next b) (n : Nat) : M.run (n + 1) a = M.run n b := by
  rw [Host.Core.run, h]

/-- Settles O44, by induction on the number of steps: each leaves the same wait, with nothing released against its snapshot. -/
theorem waitWithoutKeyChangeStays : Obligations.WaitWithoutKeyChangeStays := by
  intro x s hnext hun n
  induction n generalizing s with
  | zero => exact ⟨s, rfl, rfl, rfl, rfl, rfl, hnext.1⟩
  | succ n ih =>
    have hstep : step s = .next (waitHere s) := (Stepping.step_of_nextIs hnext).trans (exec_ldVK_unresolved hun)
    obtain ⟨t, hrun, hsame⟩ := ih (waitHere s) (nextIs_waitHere hnext) (unresolved_waitHere s)
    exact ⟨t, (run_succ (M := core) hstep n).trans hrun, hsame⟩

/-! ### A press and a release (R116) -/

theorem hostAct_step_waits (h : nextIs s (.ldVK x)) (hun : Unresolved s) :
    hostAct .step s = .ok (waitHere s, .stepOk) :=
  Stepping.stepOp_of_step ((Stepping.step_of_nextIs h).trans (exec_ldVK_unresolved hun))

theorem hostAct_step_resolves (h : nextIs s (.ldVK x)) (hw : s.waitState = .waiting) (ha : s.waitAddr = s.pc) {k : Key}
    (hk : ∀ j : Key, released s j ↔ j = k) : hostAct .step s = .ok (resolved s x k, .stepOk) := by
  refine Stepping.stepOp_of_step ((Stepping.step_of_nextIs h).trans (exec_ldVK_resolve hw ha ((hk k).mpr rfl) ?_))
  intro j hj hrel
  exact absurd ((hk j).mp hrel) (Fin.ne_of_lt hj)

/-- The wait entered with every key up, and key `k` pressed after it. -/
def keyPressed (s : State) (k : Key) : State := { waitHere s with keys := s.keys.set k true }

/-- The press taken into the snapshot, and key `k` released after it. -/
def keyReleased (s : State) (k : Key) : State :=
  { waitHere (keyPressed s k) with keys := (keyPressed s k).keys.set k false }

theorem nextIs_keyPressed {i : Instr} (k : Key) (h : nextIs s i) : nextIs (keyPressed s k) i := nextIs_waitHere h

theorem nextIs_keyReleased {i : Instr} (k : Key) (h : nextIs s i) : nextIs (keyReleased s k) i :=
  nextIs_waitHere (nextIs_keyPressed k h)

theorem keyReleased_pc (s : State) (k : Key) : (keyReleased s k).pc = s.pc := rfl

theorem keyReleased_v (s : State) (k : Key) : (keyReleased s k).v = s.v := rfl

theorem resolved_pc (s : State) (x : Reg) (k : Key) : (resolved s x k).pc = s.pc + 2 := rfl

theorem resolved_v_same (s : State) (x : Reg) (k : Key) : (resolved s x k).v[x].toNat = k.val := by
  have hx : (resolved s x k).v[x] = BitVec.ofNat 8 k.val := State.readV_writeV_same s x _
  rw [hx, BitVec.toNat_ofNat]
  exact Nat.mod_eq_of_lt (Nat.lt_trans k.isLt (by decide))

theorem resolved_v_other (s : State) {x r : Reg} (k : Key) (h : r ≠ x) : (resolved s x k).v[r] = s.v[r] :=
  State.readV_writeV_other s x r _ h

theorem unresolved_keyPressed (k : Key) (hoff : ∀ j : Key, s.keys[j] = false) : Unresolved (keyPressed s k) :=
  .inr (.inr fun j ⟨hprev, _⟩ => absurd ((hoff j).symm.trans hprev) Bool.noConfusion)

theorem released_keyReleased_iff (k : Key) (hoff : ∀ j : Key, s.keys[j] = false) (j : Key) :
    released (keyReleased s k) j ↔ j = k := by
  constructor
  · rintro ⟨hprev, -⟩
    by_contra hj
    have hprev : (s.keys.set k true)[j] = true := hprev
    rw [Operations.getElem_set_key_other s.keys true hj, hoff j] at hprev
    cases hprev
  · rintro rfl
    exact ⟨Vector.getElem_set_self j.isLt, Vector.getElem_set_self j.isLt⟩

/-- Settles O45: entry, press, a poll that takes the press into the snapshot, release, and a poll that finds `k` alone released. -/
theorem pressThenReleaseResolvesTheWait : Obligations.PressThenReleaseResolvesTheWait := by
  intro x k s hnext hidle hoff
  have hpress : hostAct (.setKey k.val true) (waitHere s) = .ok (keyPressed s k, .done) := Operations.hostAct_setKey ..
  have hrelease : hostAct (.setKey k.val false) (waitHere (keyPressed s k)) = .ok (keyReleased s k, .done) :=
    Operations.hostAct_setKey ..
  refine ⟨resolved (keyReleased s k) x k, ?_, resolved_v_same _ x k, ?_, rfl, fun r hr => ?_⟩
  · rw [Operations.hostRun_cons (hostAct_step_waits hnext (.inl hidle)), Operations.hostRun_cons hpress,
      Operations.hostRun_cons (hostAct_step_waits (nextIs_keyPressed k hnext) (unresolved_keyPressed k hoff)),
      Operations.hostRun_cons hrelease,
      Operations.hostRun_cons
        (hostAct_step_resolves (nextIs_keyReleased k hnext) rfl rfl (released_keyReleased_iff k hoff)), hostRun]
  · rw [resolved_pc, keyReleased_pc]
  · rw [resolved_v_other _ k hr, keyReleased_v]

end Sys2Proof.Laws.Keys
end

section
/-! What an instruction can leave, said once for all 34: the rules about the whole machine read it off, each at the field it speaks
of. -/

namespace Sys2Proof.Laws.Effects

open Sys2Proof Sys2Proof.Machine Sys2Proof.Spec

variable {s t : State} {i : Instr}

/-- The six instructions that skip on a condition (40_control_flow.md R81 to R84; 44_input_timers.md R113, R114). -/
def Skips (i : Instr) : Prop :=
  (∃ x kk, i = .seImm x kk) ∨ (∃ x kk, i = .sneImm x kk) ∨ (∃ x y, i = .seReg x y) ∨ (∃ x y, i = .sneReg x y) ∨
    (∃ x, i = .skp x) ∨ ∃ x, i = .sknp x

/-- The five instructions that write V[x] and no flag (41_alu.md R87 to R89, R98; 44_input_timers.md R118). -/
def WritesReg (i : Instr) (x : Reg) : Prop :=
  (∃ kk, i = .ldImm x kk) ∨ (∃ kk, i = .addImm x kk) ∨ (∃ y, i = .ldReg x y) ∨ (∃ kk, i = .rnd x kk) ∨ i = .ldVDt x

/-- The eight instructions of 41_alu.md R90 to R97 that write a result and a flag. -/
def WritesFlag (i : Instr) : Prop :=
  ∃ x y, i ∈ [.orReg x y, .andReg x y, .xorReg x y, .addReg x y, .subReg x y, .shrReg x y, .subnReg x y, .shlReg x y]

/-- The three instructions that write I alone (42_index_memory.md R101 to R103). -/
def WritesIndex (i : Instr) : Prop := (∃ nnn, i = .ldI nnn) ∨ (∃ x, i = .addI x) ∨ ∃ x, i = .ldF x

/-- The instructions that may raise a fault code (60_exceptions.md R124). -/
def Raises (i : Instr) (c : FaultCode) : Prop :=
  (i = .ret ∧ c = .stackUnderflow) ∨ ((∃ nnn, i = .call nnn) ∧ c = .stackOverflow) ∨
  (((∃ x y n, i = .drw x y n) ∨ ∃ x, i = .loadRegs x) ∧ c = .memReadRange) ∨
  (((∃ x, i = .ldB x) ∨ ∃ x, i = .storeRegs x) ∧ (c = .memWriteRange ∨ c = .fontWrite)) ∨
  (((∃ x, i = .skp x) ∨ ∃ x, i = .sknp x) ∧ c = .keyRange)

/-- The states an instruction can leave: the fault taken, or one state per shape of result. -/
inductive Effect (s : State) : Instr → State → Prop where
  | fault {i : Instr} {f : FaultEvent} (h : Raises i f.code) : Effect s i (takeFault s f)
  | cls : Effect s .cls { executed s (s.pc + 2) with fb := blankFrame, drawFlag := true }
  | ret (h : 0 < s.sp.val) : Effect s .ret { executed s (s.top h) with sp := s.drop.sp }
  | jp (nnn : Addr12) : Effect s (.jp nnn) (executed s (zextAddr nnn))
  | call (nnn : Addr12) (h : s.sp.val < 16) : Effect s (.call nnn) { executed s (zextAddr nnn) with
      sp := ⟨s.sp.val + 1, Nat.succ_lt_succ h⟩, stack := s.stack.set s.sp.val (s.pc + 2) h }
  | jpV0 (nnn : Addr12) : Effect s (.jpV0 nnn) (executed s (zextAddr nnn + zextByte s.v[(0 : Reg)]))
  | skip {i : Instr} {pc : Word} (hi : Skips i) (h : pc = s.pc + 4 ∨ pc = s.pc + 2) : Effect s i (executed s pc)
  | reg {i : Instr} {x : Reg} (hi : WritesReg i x) (b : Byte) (draws : Nat) :
      Effect s i { executed s (s.pc + 2) with v := s.v.set x b, freeDraws := draws }
  | flag {i : Instr} (hi : WritesFlag i) (v : Vector Byte 16) (draws : Nat) :
      Effect s i { executed s (s.pc + 2) with v := v, freeDraws := draws }
  | drw (x y : Reg) (n : Height) (d : FrameBuffer × Bool) : Effect s (.drw x y n) (Screen.afterDraw s d)
  | index {i : Instr} (hi : WritesIndex i) (a : Word) : Effect s i { executed s (s.pc + 2) with i := a }
  | ldB (x : Reg) {m : Memory} (h : memWriteBlock s.params s.mem s.i.toNat (decimalDigits s.v[x]) = .ok m) :
      Effect s (.ldB x) { executed s (s.pc + 2) with mem := m }
  | storeRegs (x : Reg) {m : Memory} (h : memWriteBlock s.params s.mem s.i.toNat (s.regBlock x) = .ok m) :
      Effect s (.storeRegs x) { executed s (s.pc + 2) with mem := m, i := indexAfterBlock s.i x }
  | loadRegs (x : Reg) {bs : List Byte} (h : memReadBlock s.mem s.i.toNat (x.val + 1) = .ok bs) :
      Effect s (.loadRegs x) { executed s (s.pc + 2) with v := setRegsFrom s.v 0 bs, i := indexAfterBlock s.i x }
  | ldDtV (x : Reg) : Effect s (.ldDtV x) { executed s (s.pc + 2) with dt := s.v[x] }
  | ldStV (x : Reg) : Effect s (.ldStV x) { executed s (s.pc + 2) with st := s.v[x] }
  | waits (x : Reg) : Effect s (.ldVK x) (Keys.waitHere s)
  | resolves (x : Reg) (k : Key) : Effect s (.ldVK x) (Keys.resolved s x k)

/-! ### Each shape from its instructions -/

theorem effect_skipIf {c : Bool} (hi : Skips i) (h : retire (s.begin.skipIf c) = .next t) : Effect s i t := by
  rw [ControlFlow.retire_skipIf_begin Iff.rfl] at h
  cases h
  exact .skip hi (ite_eq_or_eq _ _ _)

theorem effect_writeRF {x : Reg} {r : Byte} {f : Bool} (hi : WritesFlag i) (h : retire (s.begin.writeRF x r f) = .next t) :
    Effect s i t := by
  by_cases hx : x ≠ regF ∨ s.begin.params.vfAlias = .flagWins
  · rw [State.writeRF_flag _ _ _ _ hx] at h
    cases h; exact .flag hi _ _
  · rw [State.writeRF_any _ _ _ _ hx] at h
    cases h; exact .flag hi _ _

/-- Everything an instruction can leave, whichever it is. -/
theorem exec_effect (h : exec i s = .next t) : Effect s i t := by
  cases i with
  | cls => cases h; exact .cls
  | ret =>
    by_cases hsp : 0 < s.sp.val
    · cases (ControlFlow.exec_ret hsp).symm.trans h
      exact .ret hsp
    · cases (ControlFlow.exec_ret_empty (Nat.eq_zero_of_not_pos hsp)).symm.trans h
      exact .fault (f := raiseFault .stackUnderflow 0) (by simp [Raises, raiseFault])
  | jp nnn => cases h; exact .jp nnn
  | call nnn =>
    by_cases hsp : s.sp.val < 16
    · cases (ControlFlow.exec_call hsp).symm.trans h
      exact .call nnn hsp
    · cases (ControlFlow.exec_call_full (by omega)).symm.trans h
      exact .fault (f := raiseFault .stackOverflow 16) (by simp [Raises, raiseFault])
  | jpV0 nnn => cases h; exact .jpV0 nnn
  | seImm | sneImm | seReg | sneReg => exact effect_skipIf (by simp [Skips]) h
  | skp x =>
    by_cases hk : s.v[x].toNat < 16
    · cases (Keys.exec_skp hk).symm.trans h
      exact .skip (by simp [Skips]) (ite_eq_or_eq _ _ _)
    · cases (Keys.exec_skp_out (by omega)).symm.trans h
      exact .fault (f := raiseFault .keyRange s.v[x].toNat) (by simp [Raises, raiseFault])
  | sknp x =>
    by_cases hk : s.v[x].toNat < 16
    · cases (Keys.exec_sknp hk).symm.trans h
      exact .skip (by simp [Skips]) (ite_eq_or_eq _ _ _)
    · cases (Keys.exec_sknp_out (by omega)).symm.trans h
      exact .fault (f := raiseFault .keyRange s.v[x].toNat) (by simp [Raises, raiseFault])
  | ldImm | addImm | ldReg | rnd | ldVDt => cases h; exact .reg (by simp [WritesReg]) _ _
  | orReg x y | andReg x y | xorReg x y | addReg x y | subReg x y | shrReg x y | subnReg x y | shlReg x y =>
    exact effect_writeRF ⟨x, y, by simp⟩ h
  | ldI | addI | ldF => cases h; exact .index (by simp [WritesIndex]) _
  | drw x y n =>
    cases hd : Screen.spriteDrawn s x y n with
    | ok d => cases (Screen.exec_drw_ok hd).symm.trans h; exact .drw x y n d
    | error f =>
      cases (Screen.exec_drw_error hd).symm.trans h
      exact .fault (by simp [Raises, drawRows_error _ _ _ _ _ _ _ _ hd])
  | ldB x =>
    cases hm : memWriteBlock s.params s.mem s.i.toNat (decimalDigits s.v[x]) with
    | ok m => cases (Transfer.exec_ldB_ok hm).symm.trans h; exact .ldB x hm
    | error f =>
      cases (Transfer.exec_ldB_error hm).symm.trans h
      exact .fault (by simp [Raises, memWriteBlock_error _ _ _ _ _ hm])
  | storeRegs x =>
    cases hm : memWriteBlock s.params s.mem s.i.toNat (s.regBlock x) with
    | ok m => cases (Transfer.exec_storeRegs_ok hm).symm.trans h; exact .storeRegs x hm
    | error f =>
      cases (Transfer.exec_storeRegs_error hm).symm.trans h
      exact .fault (by simp [Raises, memWriteBlock_error _ _ _ _ _ hm])
  | loadRegs x =>
    cases hb : memReadBlock s.mem s.i.toNat (x.val + 1) with
    | ok bs => cases (Transfer.exec_loadRegs_ok hb).symm.trans h; exact .loadRegs x hb
    | error f =>
      cases (Transfer.exec_loadRegs_error hb).symm.trans h
      exact .fault (by simp [Raises, memReadBlock_error _ _ _ _ hb])
  | ldDtV x => cases h; exact .ldDtV x
  | ldStV x => cases h; exact .ldStV x
  | ldVK x =>
    rcases Keys.exec_ldVK_cases x s with hw | ⟨k, hk⟩
    · cases hw.symm.trans h; exact .waits x
    · cases hk.symm.trans h; exact .resolves x k

end Sys2Proof.Laws.Effects
end

section
/-! The rules about the whole machine: which instruction may change a field, fault, or leave another PC. Each is read off the states
an instruction can leave, at the one field it speaks of. -/

namespace Sys2Proof.Laws.WholeMachine

open Sys2Proof Sys2Proof.Machine Sys2Proof.Spec Sys2Proof.Laws.Effects

variable {s t : State} {i : Instr}

/-- Settles O12: every other state an instruction leaves has the latch of the state before it. -/
theorem faultsComeOnlyFromTheirInstructions : Obligations.FaultsComeOnlyFromTheirInstructions := by
  intro i s t hrun h hhalt
  cases exec_effect h with
  | fault hraises => exact hraises
  | _ => exact absurd (hrun.symm.trans hhalt) Bool.noConfusion

/-- Settles O19: what is left names the instruction, has PC + 2, or is a fault. -/
theorem onlyTransfersMovePcElsewhere : Obligations.OnlyTransfersMovePcElsewhere := by
  intro i s t _ h hhalt hpc
  cases exec_effect h with
  | fault => exact absurd hhalt Bool.noConfusion
  | ret => simp
  | jp | call | jpV0 => simp
  | skip hi => rcases hi with hi | hi | hi | hi | hi | hi <;> simp [hi]
  | waits | resolves => simp
  | _ => exact absurd rfl hpc

/-- Settles O41: the blank frame and the draw set drawFlag, and nothing else holds another screen or flag. -/
theorem onlyDisplayTouchesTheScreen : Obligations.OnlyDisplayTouchesTheScreen := by
  intro i s t _ h
  refine ⟨?_, fun hother => ?_, fun hset => ?_⟩
  · rintro (rfl | ⟨x, y, n, rfl⟩) hhalt
    · cases (Screen.exec_cls s).symm.trans h; rfl
    · obtain ⟨⟨d, -, rfl⟩, -⟩ := Screen.drawn_of_exec h hhalt; rfl
  · cases exec_effect h with
    | cls => exact absurd (.inl rfl) hother
    | drw x y n => exact absurd (.inr ⟨x, y, n, rfl⟩) hother
    | _ => exact ⟨rfl, rfl⟩
  · cases exec_effect h with
    | cls | drw => rfl
    | _ => exact hset

/-- Settles O48: only the two stores leave another memory. -/
theorem onlyStoresChangeMemory : Obligations.OnlyStoresChangeMemory := by
  intro i s t h
  cases exec_effect h with
  | ldB x => exact .inl (.inl ⟨x, rfl⟩)
  | storeRegs x => exact .inl (.inr ⟨x, rfl⟩)
  | _ => exact .inr fun _ => rfl

/-- Settles O49: only the call leaves other slots, and beside it only the return another SP. -/
theorem onlyCallAndReturnUseTheStack : Obligations.OnlyCallAndReturnUseTheStack := by
  intro i s t h
  cases exec_effect h with
  | call nnn => exact .inl ⟨nnn, rfl⟩
  | ret => exact .inr (.inl ⟨rfl, rfl⟩)
  | _ => exact .inr (.inr ⟨rfl, rfl⟩)

/-- Settles O50: three instructions write I alone, and the two transfers of the register file move it past their block. -/
theorem onlyIndexInstructionsWriteI : Obligations.OnlyIndexInstructionsWriteI := by
  intro i s t h hi
  cases exec_effect h with
  | index hw => rcases hw with hw | hw | hw <;> simp [hw]
  | storeRegs | loadRegs => simp
  | _ => exact absurd rfl hi

/-- A register other than VF is written: VF is as before. -/
theorem eq_regF_of_set_ne {v : Vector Byte 16} {x : Reg} {b : Byte} (h : (v.set x b)[(15 : Reg)] ≠ v[(15 : Reg)]) : x = 15 := by
  by_contra hx
  exact h (Vector.getElem_set_ne x.isLt (15 : Reg).isLt fun e => hx (Fin.ext e))

theorem eq_regF_of_load_ne {x : Reg} {bs : List Byte} (hb : memReadBlock s.mem s.i.toNat (x.val + 1) = .ok bs)
    (h : (setRegsFrom s.v 0 bs)[(15 : Reg)] ≠ s.v[(15 : Reg)]) : x = 15 := by
  rw [Transfer.readBlock_of_ok hb, Transfer.getElem_setRegsFrom_zero] at h
  have hlast : (15 : Reg).val < x.val + 1 := by
    by_contra hlt
    exact h (if_neg hlt)
  have hx : (15 : Reg).val = 15 := rfl
  exact Fin.ext (by omega)

/-- The instructions that write one register, with VF as the destination. -/
theorem destination_vf (hi : WritesReg i 15) :
    ∃ kk y, i ∈ [.ldImm 15 kk, .addImm 15 kk, .ldReg 15 y, .rnd 15 kk, .ldVDt 15, .ldVK 15, .loadRegs 15] := by
  rcases hi with ⟨kk, rfl⟩ | ⟨kk, rfl⟩ | ⟨y, rfl⟩ | ⟨kk, rfl⟩ | rfl <;> simp

/-- Settles O51: beside the flag-writing instructions and the draw, VF is written as the destination or as the last of the block. -/
theorem onlyFlagInstructionsWriteVfAside : Obligations.OnlyFlagInstructionsWriteVfAside := by
  intro i s t h hvf
  cases exec_effect h with
  | flag hi => exact .inl hi
  | drw x y n => exact .inr (.inl ⟨x, y, n, rfl⟩)
  | reg hi b =>
    obtain rfl := eq_regF_of_set_ne hvf
    exact .inr (.inr (destination_vf hi))
  | loadRegs x hb =>
    obtain rfl := eq_regF_of_load_ne hb hvf
    simp
  | resolves x k =>
    obtain rfl := eq_regF_of_set_ne hvf
    simp
  | _ => exact absurd rfl hvf

/-- DT and ST change by the instruction that sets them alone. -/
theorem exec_dt_st (h : exec i s = .next t) :
    (t.dt ≠ s.dt → ∃ x, i = .ldDtV x) ∧ (t.st ≠ s.st → ∃ x, i = .ldStV x) := by
  cases exec_effect h with
  | ldDtV x => exact ⟨fun _ => ⟨x, rfl⟩, fun hst => absurd rfl hst⟩
  | ldStV x => exact ⟨fun hdt => absurd rfl hdt, fun _ => ⟨x, rfl⟩⟩
  | _ => exact ⟨fun hdt => absurd rfl hdt, fun hst => absurd rfl hst⟩

/-- Settles O47: a STEP that sets a timer executed the instruction that sets it. -/
theorem stepsLeaveKeysAndTimersAlone : Obligations.StepsLeaveKeysAndTimersAlone := by
  intro s t h
  have hinputs : t.keys = s.keys ∧ t.params = s.params := by
    rcases Stepping.step_latch h with ⟨f, -, rfl⟩ | ⟨-, -, -, -, hkeys, hparams⟩
    · exact ⟨rfl, rfl⟩
    · exact ⟨hkeys, hparams⟩
  refine ⟨hinputs.1, hinputs.2, ?_⟩
  rcases Stepping.step_next_cases h with rfl | ⟨i, hnext, hexec⟩ | ⟨-, w, rfl⟩
  · exact ⟨fun hdt => absurd rfl hdt, fun hst => absurd rfl hst⟩
  · obtain ⟨hdt, hst⟩ := exec_dt_st hexec
    refine ⟨fun hne => ?_, fun hne => ?_⟩
    · obtain ⟨x, rfl⟩ := hdt hne; exact ⟨x, hnext⟩
    · obtain ⟨x, rfl⟩ := hst hne; exact ⟨x, hnext⟩
  · exact ⟨fun hdt => absurd rfl hdt, fun hst => absurd rfl hst⟩

end Sys2Proof.Laws.WholeMachine
end

section
/-! The invariant of the core (10_state.md R36), clause by clause, along every STEP and every operation of the host. -/

namespace Sys2Proof.Laws.Invariant

open Sys2Proof Sys2Proof.Machine Sys2Proof.Spec Sys2Proof.Laws.Effects

variable {s t : State} {i : Instr} {m : Memory}

/-! ### Memory and the font (20_memory.md R47) -/

/-- A STEP leaves memory alone or stores a block. -/
theorem step_mem (h : step s = .next t) :
    t.mem = s.mem ∨ ∃ bs, memWriteBlock s.params s.mem s.i.toNat bs = .ok t.mem := by
  rcases Stepping.step_next_cases h with rfl | ⟨i, -, hexec⟩ | ⟨-, w, rfl⟩
  · exact .inl rfl
  · cases exec_effect hexec with
    | ldB x hm => exact .inr ⟨_, hm⟩
    | storeRegs x hm => exact .inr ⟨_, hm⟩
    | _ => exact .inl rfl
  · exact .inl rfl

theorem step_memory_wf (hs : s.Inv) (h : step s = .next t) : t.mem.wf = true := by
  rcases step_mem h with hmem | ⟨bs, hm⟩
  · rw [hmem]; exact hs.memory_wf
  · obtain ⟨-, -, hwf, -⟩ := memWriteBlock_inv _ _ _ _ _ hm
    exact hwf hs.memory_wf

/-- Under the policy Fault a store that succeeds wrote no address of the font region. -/
theorem read_font_of_stored {p : Config.Params} {m' : Memory} {a : Nat} {bs : List Byte} (hm : memWriteBlock p m a bs = .ok m')
    (hp : p.fontWritePolicy = .fault) (k : Fin 80) : m'.read k.val = m.read k.val := by
  obtain ⟨-, hother, -, hwritable⟩ := memWriteBlock_inv _ _ _ _ _ hm
  refine hother k.val ?_
  by_contra hin
  rcases (hwritable (k.val - a) (by omega)).2 with hpast | hallow
  · have := k.isLt; omega
  · rw [hp] at hallow; cases hallow

theorem step_params (h : step s = .next t) : t.params = s.params := (WholeMachine.stepsLeaveKeysAndTimersAlone s t h).2.1

theorem step_font (hs : s.Inv) (h : step s = .next t) (hp : t.params.fontWritePolicy = .fault) : t.fontIntact := by
  rw [step_params h] at hp
  intro k
  rw [step_params h, ← hs.font hp k]
  rcases step_mem h with hmem | ⟨bs, hm⟩
  · rw [hmem]
  · exact read_font_of_stored hm hp k

/-! ### The wait, PC and the return addresses -/

theorem step_waiting (hs : s.Inv) (h : step s = .next t) (hw : t.waitState = .waiting) : t.pc = t.waitAddr := by
  rcases Stepping.step_next_cases h with rfl | ⟨i, -, hexec⟩ | ⟨-, w, rfl⟩
  · exact hs.waiting hw
  · cases exec_effect hexec with
    | fault => exact hs.waiting hw
    | waits => rfl
    | _ => cases hw
  · cases hw

theorem step_pc_bound (hs : s.Inv) (h : step s = .next t) : t.pc.toNat ≤ 0x10FE := by
  rcases Stepping.step_next_cases h with rfl | ⟨i, ⟨-, hpc, -⟩, hexec⟩ | ⟨hpc, w, rfl⟩
  · exact hs.pc_bound
  · have hnext : (s.pc + 2).toNat = s.pc.toNat + 2 := ControlFlow.pc_add_toNat hpc (by decide)
    cases exec_effect hexec with
    | fault | waits => exact hs.pc_bound
    | ret hsp => exact (hs.stack_bound ⟨s.sp.val - 1, by omega⟩).trans (by decide)
    | jp nnn | call nnn =>
      change (zextAddr nnn).toNat ≤ _
      rw [ControlFlow.zextAddr_toNat]; have := nnn.isLt; omega
    | jpV0 nnn =>
      change (zextAddr nnn + zextByte s.v[(0 : Reg)]).toNat ≤ _
      rw [ControlFlow.jpV0_target_toNat]; have := nnn.isLt; have := s.v[(0 : Reg)].isLt; omega
    | skip _ hskip =>
      have hskipped : (s.pc + 4).toNat = s.pc.toNat + 4 := ControlFlow.pc_add_toNat hpc (by decide)
      rcases hskip with rfl | rfl
      · change (s.pc + 4).toNat ≤ _; omega
      · change (s.pc + 2).toNat ≤ _; omega
    | _ => change (s.pc + 2).toNat ≤ _; omega
  · have hnext : (s.pc + 2).toNat = s.pc.toNat + 2 := ControlFlow.pc_add_toNat hpc (by decide)
    change (s.pc + 2).toNat ≤ _; omega

theorem step_stack_bound (hs : s.Inv) (h : step s = .next t) (j : Fin 16) : t.stack[j].toNat ≤ 0x1000 := by
  rcases Stepping.step_next_cases h with rfl | ⟨i, ⟨-, hpc, -⟩, hexec⟩ | ⟨-, w, rfl⟩
  · exact hs.stack_bound j
  · cases exec_effect hexec with
    | call nnn hsp =>
      have hnext : (s.pc + 2).toNat = s.pc.toNat + 2 := ControlFlow.pc_add_toNat hpc (by decide)
      change ((s.stack.set s.sp.val (s.pc + 2) hsp)[j.val]).toNat ≤ _
      rw [Vector.getElem_set]
      split
      · omega
      · exact hs.stack_bound j
    | _ => exact hs.stack_bound j
  · exact hs.stack_bound j

/-! ### The latch (60_exceptions.md R125) -/

theorem faultCode_of_running (hs : s.Inv) (hrun : s.halted = false) : s.faultCode = .none := by
  by_contra hcode
  exact absurd (hrun.symm.trans (hs.latch_code.mpr hcode)) Bool.noConfusion

theorem step_latch_code (hs : s.Inv) (h : step s = .next t) : t.halted = true ↔ t.faultCode ≠ .none := by
  rcases Stepping.step_latch h with ⟨f, hcode, rfl⟩ | ⟨-, hhalt, hcode, -⟩
  · simp [hcode]
  · simp [hhalt, hcode, faultCode_of_running hs (step_next_running s t h)]

theorem step_latch_info (hs : s.Inv) (h : step s = .next t) (hrun : t.halted = false) : t.faultInfo = 0 := by
  rcases Stepping.step_latch h with ⟨f, -, rfl⟩ | ⟨-, -, -, hinfo, -⟩
  · cases hrun
  · rw [hinfo]; exact hs.latch_info (step_next_running s t h)

/-- Settles O58: each clause along the STEP. -/
theorem stepKeepsTheInvariant : Obligations.StepKeepsTheInvariant := fun _ _ hs h =>
  { memory_wf := step_memory_wf hs h
    font := step_font hs h
    waiting := step_waiting hs h
    pc_bound := step_pc_bound hs h
    stack_bound := step_stack_bound hs h
    latch_status := Stepping.halted_iff_of_step h
    latch_code := step_latch_code hs h
    latch_info := step_latch_info hs h }

/-! ### The host's operations (10_state.md R39) -/

/-- INIT leaves the invariant, whatever it starts from. -/
theorem inv_init (s : State) : s.init.Inv := by
  obtain ⟨hfont, -, hwf⟩ := initialMemory_spec s.params
  exact {
    memory_wf := hwf
    font := fun _ => hfont
    waiting := nofun
    pc_bound := show (0x200 : Word).toNat ≤ 0x10FE by decide
    stack_bound := fun j => by
      have hslot : s.init.stack[j] = 0 := Vector.getElem_replicate j.isLt
      rw [hslot]; decide
    latch_status := by simp [State.reset]
    latch_code := by simp [State.reset]
    latch_info := fun _ => rfl }

/-- Settles O57: the reset state is what INIT makes of itself. -/
theorem resetMeetsTheInvariant : Obligations.ResetMeetsTheInvariant :=
  (congrArg State.Inv State.init_reset).mp (inv_init State.reset)

/-- A LOAD writes past the font region. -/
theorem inv_load (hs : s.Inv) (bytes : List Byte) : State.Inv { s with mem := s.mem.pokeBlock Config.programBase bytes } := by
  obtain ⟨-, hother, hwf⟩ := Memory.pokeBlock_spec bytes s.mem Config.programBase
  refine { hs with memory_wf := hwf hs.memory_wf, font := fun hp k => (hother k.val (.inl ?_)).trans (hs.font hp k) }
  change k.val < 0x200
  have := k.isLt; omega

/-- The STEP of the host: the machine's step, or the status of a halted core. -/
theorem inv_stepOp {r : HostReply} (hs : s.Inv) (h : s.stepOp = .ok (t, r)) : t.Inv := by
  cases hhalt : s.halted with
  | true =>
    cases (Stepping.stepOp_halted hhalt).symm.trans h
    exact { hs with latch_status := by simp [hhalt] }
  | false =>
    obtain ⟨u, hstep, -⟩ := Stepping.runningCoreAlwaysSteps s hhalt
    cases (Stepping.stepOp_of_step hstep).symm.trans h
    exact stepKeepsTheInvariant s _ hs hstep

theorem inv_hostAct {op : HostOp} {r : HostReply} (hs : s.Inv) (h : hostAct op s = .ok (t, r)) : t.Inv := by
  rcases Operations.hostAct_cases h with ⟨-, rfl⟩ | ⟨bytes, rfl⟩ | hstep | ⟨_, _, _, _, rfl⟩
  · exact inv_init s
  · exact inv_load hs bytes
  · exact inv_stepOp hs hstep
  · exact { hs with }

/-- Settles O59, by induction on the sequence: each accepted operation keeps the invariant. -/
theorem hostRunsKeepTheInvariant : Obligations.HostRunsKeepTheInvariant := by
  intro ops
  induction ops with
  | nil => intro s t hs h; cases h; exact hs
  | cons op ops ih =>
    intro s t hs h
    cases hact : hostAct op s with
    | ok tr =>
      obtain ⟨u, r⟩ := tr
      exact ih u t (inv_hostAct hs hact) ((Operations.hostRun_cons hact).symm.trans h)
    | error e => rw [hostRun, hact] at h; cases h

end Sys2Proof.Laws.Invariant
end
